-- ==== Sys2Proof/Word.lean ====
section
/-!
DEFINITION. The words of the engine: cells, nibbles, port words and the 67-bit command word, and the two four-byte
shapes of the spec, the byte vector and the grid (00_scope.md R4, R6, R9). The types carry the fixed parameters of R4:
`CELLW` = 8, `NIBW` = `SBOX_WIDTH` = 4, `NCELLS` = `BLOCK_BYTES` = `KEY_BYTES` = 4, `OPW` = 3, `CWW` = 67.
-/

namespace Sys2Proof

/-- A cell of a grid and a byte of an operand: `CELLW` = 8 bits. A cell is never narrowed to 4 bits (R13, C1). -/
abbrev Byte := BitVec 8

/-- An index and an entry of `SBOX`: `NIBW` = `SBOX_WIDTH` = 4 bits (R4, R15). -/
abbrev Nibble := BitVec 4

/-- The value of a 32-bit port: `cmd_kin`, `cmd_din` or `dout` (R45). -/
abbrev PortWord := BitVec 32

/-- A command word `CW`: `cmd_op ∥ cmd_kin ∥ cmd_din`, `CWW` = 67 bits (R45). -/
abbrev CommandWord := BitVec 67

/-- A byte vector: four bytes `b[0]` to `b[3]` (R9). -/
structure ByteVec where
  b0 : Byte
  b1 : Byte
  b2 : Byte
  b3 : Byte
deriving DecidableEq, Repr, Inhabited

/-- A grid: four cells, `c01` being row 0, column 1 (R9, R11). -/
structure Grid where
  c00 : Byte
  c01 : Byte
  c10 : Byte
  c11 : Byte
deriving DecidableEq, Repr, Inhabited

end Sys2Proof
end

