-- ==== Sys2Proof/Syntax.lean ====
section
/-!
DEFINITION. The commands of the engine, one constructor per row of spec/opcode_table.json (30_encoding.md R47, R51).
-/

namespace Sys2Proof

/-- The eight commands (R47). An operand is the byte vector that R49 assembles from its field. -/
inductive Instr where
  /-- `NOP`, `op = 0` (R93). -/
  | nop
  /-- `LDS b`, `op = 1`: the block bytes come from `din` (R60). -/
  | lds (b : ByteVec)
  /-- `LDK k`, `op = 2`: the key bytes come from `kin` (R61). -/
  | ldk (k : ByteVec)
  /-- `ARK`, `op = 3` (R80). -/
  | ark
  /-- `SUB`, `op = 4` (R65). -/
  | sub
  /-- `SHIFT`, `op = 5` (R70). -/
  | shift
  /-- `MIX`, `op = 6` (R75). -/
  | mix
  /-- `ENC b ; k`, `op = 7`: block bytes from `din`, key bytes from `kin` (R85). -/
  | enc (b k : ByteVec)
deriving DecidableEq, Repr

end Sys2Proof
end

