-- ==== Sys2Proof/Decode.lean ====
section
/-!
DEFINITION. The command word: its fields and byte lanes (30_encoding.md R45, R49; 20_memory.md R33), the opcode map as
rows of match and mask (R47, spec/opcode_table.json), the total decoder and the encoder (R51).
-/

namespace Sys2Proof

/-! ## Fields and byte lanes -/

/-- The field `op`, `CW[66:64]` (R45). -/
def opField (w : CommandWord) : BitVec 3 := w.extractLsb' 64 3

/-- The field `kin`, `CW[63:32]` (R45). -/
def kinField (w : CommandWord) : PortWord := w.extractLsb' 32 32

/-- The field `din`, `CW[31:0]` (R45). -/
def dinField (w : CommandWord) : PortWord := w.extractLsb' 0 32

/-- The command word carried on the three ports: `cmd_op ∥ cmd_kin ∥ cmd_din` (R45). -/
def commandWord (op : BitVec 3) (kin din : PortWord) : CommandWord := op ++ kin ++ din

/-- The bytes of a 32-bit port: byte `i` is bits `[8i+7:8i]` (R33, R49). -/
def bytesOf (v : PortWord) : ByteVec :=
  { b0 := v.extractLsb' 0 8, b1 := v.extractLsb' 8 8, b2 := v.extractLsb' 16 8, b3 := v.extractLsb' 24 8 }

/-- The 32-bit port value of four bytes, byte 0 in the lowest lane (R33). -/
def packBytes (b : ByteVec) : PortWord := b.b3 ++ b.b2 ++ b.b1 ++ b.b0

/-! ## The opcode map -/

/-- One row of the opcode map. -/
structure OpcodeRow where
  mnemonic : String
  pattern : CommandWord
  mask : CommandWord
deriving DecidableEq, Repr

/-- A command word belongs to a row when its masked bits are the row's pattern. -/
def rowMatches (r : OpcodeRow) (w : CommandWord) : Bool := w &&& r.mask == r.pattern

/-- The mask every row has: the three bits of `op`. -/
def opMask : CommandWord := 0x70000000000000000#67

/-- The opcode map of R47, all eight values of `op` assigned. -/
def opcodeMap : List OpcodeRow :=
  [ { mnemonic := "NOP",   pattern := 0x00000000000000000#67, mask := opMask },
    { mnemonic := "LDS",   pattern := 0x10000000000000000#67, mask := opMask },
    { mnemonic := "LDK",   pattern := 0x20000000000000000#67, mask := opMask },
    { mnemonic := "ARK",   pattern := 0x30000000000000000#67, mask := opMask },
    { mnemonic := "SUB",   pattern := 0x40000000000000000#67, mask := opMask },
    { mnemonic := "SHIFT", pattern := 0x50000000000000000#67, mask := opMask },
    { mnemonic := "MIX",   pattern := 0x60000000000000000#67, mask := opMask },
    { mnemonic := "ENC",   pattern := 0x70000000000000000#67, mask := opMask } ]

/-- The mnemonic of a command (R47). -/
def mnemonicOf : Instr → String
  | .nop => "NOP"
  | .lds _ => "LDS"
  | .ldk _ => "LDK"
  | .ark => "ARK"
  | .sub => "SUB"
  | .shift => "SHIFT"
  | .mix => "MIX"
  | .enc _ _ => "ENC"

/-- The value of `op` that selects a command (R47). -/
def opcodeOf : Instr → BitVec 3
  | .nop => 0
  | .lds _ => 1
  | .ldk _ => 2
  | .ark => 3
  | .sub => 4
  | .shift => 5
  | .mix => 6
  | .enc _ _ => 7

/-- The bits of the command word that a command reads: `op` and the operand fields R47 names for it. The others are
ignored (R48). -/
def usedBits : Instr → CommandWord
  | .nop => opMask
  | .lds _ => 0x700000000ffffffff#67
  | .ldk _ => 0x7ffffffff00000000#67
  | .ark => opMask
  | .sub => opMask
  | .shift => opMask
  | .mix => opMask
  | .enc _ _ => 0x7ffffffffffffffff#67

/-! ## The decoder -/

/-- The command that the fields select: total, every value of `op` is assigned (R47, R50, R51). -/
def decodeFields (op : BitVec 3) (kin din : PortWord) : Instr :=
  match op.toFin with
  | 0 => .nop
  | 1 => .lds (bytesOf din)
  | 2 => .ldk (bytesOf kin)
  | 3 => .ark
  | 4 => .sub
  | 5 => .shift
  | 6 => .mix
  | 7 => .enc (bytesOf din) (bytesOf kin)

/-- Decoding is a total function from command words to commands (R51); ignored bits are not looked at (R48). -/
def decode (w : CommandWord) : Instr := decodeFields (opField w) (kinField w) (dinField w)

/-- Why a number is refused as a command word. No 67-bit word is ever refused (R50). -/
inductive DecodeRefusal where
  /-- The number has a bit above bit 66, so it is no command word of `CWW` = 67 bits (R45, R52). -/
  | widerThanCommandWord
deriving DecidableEq, Repr

/-- The command that a number of `nbits` bits stands for, bit 0 least significant; refused by name when it has a bit
that no command word has. DESIGN CHOICE, log entry 12. -/
def decodeNumber (nbits w : Nat) : Except DecodeRefusal Instr :=
  if w % 2 ^ nbits < 2 ^ 67 then .ok (decode (BitVec.ofNat 67 (w % 2 ^ nbits))) else .error .widerThanCommandWord

/-- The command the decoder reads from the low `nbits` bits of `w`, every bit above them being 0; `none` where it
refuses. -/
def decodeTableWord (nbits w : Nat) : Option Instr :=
  match decodeNumber nbits w with
  | .ok i => some i
  | .error _ => none

/-! ## The encoder -/

/-- The operand field `kin` of a command; ignored fields are written as zero (R48, R51). -/
def kinOf : Instr → PortWord
  | .nop => 0
  | .lds _ => 0
  | .ldk k => packBytes k
  | .ark => 0
  | .sub => 0
  | .shift => 0
  | .mix => 0
  | .enc _ k => packBytes k

/-- The operand field `din` of a command; ignored fields are written as zero (R48, R51). -/
def dinOf : Instr → PortWord
  | .nop => 0
  | .lds b => packBytes b
  | .ldk _ => 0
  | .ark => 0
  | .sub => 0
  | .shift => 0
  | .mix => 0
  | .enc b _ => packBytes b

/-- The command word of a command, ignored bits zero (R51). -/
def encode (i : Instr) : CommandWord := commandWord (opcodeOf i) (kinOf i) (dinOf i)

end Sys2Proof
end

