-- ==== Sys2Proof/Machine/Operands.lean ====
section
/-!
DEFINITION. The operand forms: byte vectors and grids (00_scope.md R9), cells by row and column, nibbles (R6, R7), and
the cell-wise functions every transform is written with (20_memory.md R35).
-/

namespace Sys2Proof.Machine

/-- `grid(b)`: bytes 0 and 1 fill row 0, bytes 2 and 3 row 1 (R9, R32). -/
def grid (b : ByteVec) : Grid := { c00 := b.b0, c01 := b.b1, c10 := b.b2, c11 := b.b3 }

/-- `bytes(G)`, the inverse order (R9, R32). -/
def bytes (g : Grid) : ByteVec := { b0 := g.c00, b1 := g.c01, b2 := g.c10, b3 := g.c11 }

/-- The cell `G[r][c]` (R9). -/
def cell (g : Grid) (r c : Fin 2) : Byte :=
  match r, c with
  | 0, 0 => g.c00
  | 0, 1 => g.c01
  | 1, 0 => g.c10
  | 1, 1 => g.c11

/-- The byte `b[i]` (R9). -/
def byteAt (b : ByteVec) (i : Fin 4) : Byte :=
  match i with
  | 0 => b.b0
  | 1 => b.b1
  | 2 => b.b2
  | 3 => b.b3

/-- The low nibble `v[3:0]`, which is `v & 0x0F` (R6). -/
def lowNibble (v : Byte) : Nibble := v.extractLsb' 0 4

/-- The high nibble `v[7:4]` (R6). -/
def highNibble (v : Byte) : Nibble := v.extractLsb' 4 4

/-- `zext_8`: zeros in the high bits (R7). -/
def zext8 (n : Nibble) : Byte := n.setWidth 8

/-- The same function of every cell, each cell updated independently (R35). -/
def mapCells (f : Byte → Byte) (g : Grid) : Grid :=
  { c00 := f g.c00, c01 := f g.c01, c10 := f g.c10, c11 := f g.c11 }

/-- The cell-wise XOR of two grids (R7, R35). -/
def xorCells (g h : Grid) : Grid :=
  { c00 := g.c00 ^^^ h.c00, c01 := g.c01 ^^^ h.c01, c10 := g.c10 ^^^ h.c10, c11 := g.c11 ^^^ h.c11 }

/-- A cell in [0,15], its high nibble zero (10_state.md R13). -/
def lowCell (v : Byte) : Bool := decide (v.toNat < 16)

/-- Every cell in [0,15]. This is no invariant of the engine (R13, C1). -/
def lowCells (g : Grid) : Bool := lowCell g.c00 && lowCell g.c01 && lowCell g.c10 && lowCell g.c11

end Sys2Proof.Machine
end

