-- ==== Sys2Proof/Config.lean ====
section
/-!
DEFINITION. What the spec leaves open (00_scope.md R5, 93_implementation_defined.md part 1): each is an opaque constant
with no body, so that no proof can see its value and a claim holds whatever it is.
-/

namespace Sys2Proof.Config

/-- The substitution table `SBOX`: OPEN, 16 entries of 4 bits, of which the spec states that they are a bijection and
nothing else (10_state.md R15; U1; D23). Its type says the bijection. No command and no reset writes it (R16, R26).
Log entry 1; safe. -/
opaque SBOX : Equiv.Perm Nibble

/-- The content of `S` after the reset that begins run number `epoch`: unspecified, and two resets need not leave the
same value (R23, U2). DESIGN CHOICE, log entry 3. -/
opaque resetS : (epoch : Nat) → Grid

/-- The content of `K` after the reset that begins run number `epoch`: unspecified (R24, U3). DESIGN CHOICE, log
entry 3. -/
opaque resetK : (epoch : Nat) → Grid

/-- What `dout` shows while `dout_valid = 0`: any value (R94, U4), drawn anew for each run (`epoch`) and each place in
the program (`index`). DESIGN CHOICE, log entry 4. -/
opaque doutUnwritten : (epoch index : Nat) → Grid

/-- `LAT(op)`, the clock cycles one command takes: OPEN, at least 1 (R5, R125; U9). No rule reads it, and nothing in the
model does: the model has no time. Log entry 10. -/
opaque LAT : BitVec 3 → PNat

/-- Whether the host's rendered text ends with a newline: OPEN, outside the hardware (R97, U7). Log entry 14. -/
opaque renderEndsWithNewline : Bool

end Sys2Proof.Config
end

