-- ==== Sys2Proof/Machine/State.lean ====
section
/-!
DEFINITION. The state of one engine (10_state.md R10), its reset value (R23 to R27), and the reasons a step can stop.
-/

namespace Sys2Proof.Machine

/-- The State-shaped registers a command can read (60_exceptions.md R102). -/
inductive Reg where
  /-- The data state `S` (R11). -/
  | S
  /-- The round key `K` (R12). -/
  | K
deriving DecidableEq, Repr

/-- The engine's state and, below it, the model's own bookkeeping of a run. -/
structure State where
  /-- The data state (R11). -/
  S : Grid
  /-- The round key (R12). -/
  K : Grid
  /-- The written tag of `S`: loaded by LDS or ENC since the last reset (R17). -/
  SW : Bool
  /-- The written tag of `K`: loaded by LDK or ENC since the last reset (R17). -/
  KW : Bool
  /-- The model's own: the command words the host has still to issue, in order. The program is an input of the model
  (30_encoding.md R46). Log entry 5. -/
  program : List CommandWord
  /-- The model's own: the index in the program of the next command, which a fault records (60_exceptions.md R102). No
  register of the engine holds it. Log entry 6. -/
  index : Nat
  /-- The model's own: the counter of the free values, which reset began this run (R23, R24). Log entry 3. -/
  epoch : Nat
deriving DecidableEq, Repr

/-- Why a step stops. -/
inductive Fault where
  /-- `UnwrittenRead(which)` at command `index` (60_exceptions.md R102): raised by ARK, SUB, SHIFT and MIX when `which`
  is `S` and `SW = 0`, and by ARK when `which` is `K`, `SW = 1` and `KW = 0`. The stop is the spec's: one of the two
  outcomes of a step (00_scope.md R8), after which there is no further step (R103). Safe: the hardware itself would
  carry on from unspecified content, which "is never given to a computation" (93_implementation_defined.md U2; log
  entry 2). -/
  | unwrittenRead (which : Reg) (index : Nat)
deriving DecidableEq, Repr

/-- Why a step has no meaning. -/
inductive Refusal where
  /-- Raised by no arm of `exec`: every command has its meaning. A command not modelled yet would be refused by its
  mnemonic. Safe. -/
  | notModelled (mnemonic : String)
deriving DecidableEq, Repr

/-- The engine right after reset (R27): both tags 0 (R25), the contents of `S` and `K` unspecified (R23, R24), which the
free values `Config.resetS 0` and `Config.resetK 0` stand for (DESIGN CHOICE, log entry 3). The host has issued
nothing: no program is invented (log entry 5). -/
def State.reset : State :=
  { S := Config.resetS 0, K := Config.resetK 0, SW := false, KW := false, program := [], index := 0, epoch := 0 }

end Sys2Proof.Machine
end

