-- ==== Sys2Proof/Machine/Ops.lean ====
section
/-!
DEFINITION. The named operations on the state: loading a register, writing all four cells of `S`, the reset event, the
one way a command raises its fault, and how a run is kept.
-/

namespace Sys2Proof.Machine

/-- What a step answers (00_scope.md R8). -/
abbrev Answer := Host.Outcome State Fault Refusal

/-! ## Registers -/

/-- `S <- grid(b)`, `SW <- 1` (40_construct.md R60). -/
def loadS (b : ByteVec) (s : State) : State := { s with S := grid b, SW := true }

/-- `K <- grid(k)`, `KW <- 1` (40_construct.md R61). -/
def loadK (k : ByteVec) (s : State) : State := { s with K := grid k, KW := true }

/-- `S <- G`: all four cells are written together, from a grid computed before any write (20_memory.md R36). The tag
stays as it is (10_state.md R14). -/
def writeS (g : Grid) (s : State) : State := { s with S := g }

/-- The reset event (70_reset_and_hazards.md R115): the tags become 0, the contents of `S` and `K` unspecified, a new
run begins. `SBOX` is a constant, so reset cannot affect it (10_state.md R26). The commands the host has not issued yet
are the host's, and stay (log entry 8). -/
def resetEvent (s : State) : State :=
  { s with S := Config.resetS (s.epoch + 1), K := Config.resetK (s.epoch + 1), SW := false, KW := false,
           index := 0, epoch := s.epoch + 1 }

/-! ## Faults -/

/-- `raise UnwrittenRead(which)`: the step's outcome is a fault that records the register and the index of the command;
no state is written (00_scope.md R8; 60_exceptions.md R102, R104). There is no trap entry and no return from one
(R107). -/
def raiseUnwrittenRead (which : Reg) (s : State) : Answer := .fault (.unwrittenRead which s.index)

/-- The name a fault has in the table of 60_exceptions.md R102; no register holds it. -/
def faultCode : Fault → Nat
  | .unwrittenRead .S _ => 1
  | .unwrittenRead .K _ => 2

/-! ## A run -/

/-- What follows an answer only where there is a next state. -/
def onNext (f : State → State) : Answer → Answer
  | .next t => .next (f t)
  | .fault r => .fault r
  | .refused r => .refused r

/-- One more command of the program is complete (R102's index). -/
def countCommand (s : State) : State := { s with index := s.index + 1 }

/-- The commands still to be issued (30_encoding.md R46). -/
def setProgram (p : List CommandWord) (s : State) : State := { s with program := p }

end Sys2Proof.Machine
end

