-- ==== Sys2Proof/Machine/Flags.lean ====
section
/-!
DEFINITION. The engine has no flags and no condition codes (10_state.md R20); its only single bits are the written tags
(R17), and their one use is the check made before a command reads a register (60_exceptions.md R102, R104, R105).
-/

namespace Sys2Proof.Machine

/-- A command that reads `S`: fault `UnwrittenRead(S)` while `SW = 0`, else what the command does (R102). -/
def readingS (s : State) (act : Answer) : Answer := bif s.SW then act else raiseUnwrittenRead .S s

/-- A command that reads `K`: fault `UnwrittenRead(K)` while `KW = 0`, else what the command does (R102). -/
def readingK (s : State) (act : Answer) : Answer := bif s.KW then act else raiseUnwrittenRead .K s

end Sys2Proof.Machine
end

