-- ==== Sys2Proof/Machine/AddRoundKey.lean ====
section
/-!
DEFINITION. The round-key combiner, command ARK (44_add_round_key.md R80).
-/

namespace Sys2Proof.Machine

/-- `S` after ARK: every cell XORed with the same cell of `K`, on all 8 bits (R80). -/
def arkEffect (s : State) : State := writeS (xorCells s.S s.K) s

/-- ARK; `UnwrittenRead(S)` while `SW = 0`, else `UnwrittenRead(K)` while `KW = 0` (R80, R105). -/
def execArk (s : State) : Answer := readingS s (readingK s (.next (arkEffect s)))

end Sys2Proof.Machine
end

