-- ==== Sys2Proof/Machine/Construct.lean ====
section
/-!
DEFINITION. The construction commands LDS and LDK (40_construct.md).
-/

namespace Sys2Proof.Machine

/-- LDS: `S <- grid(b)`, `SW <- 1`, in any state (R60). -/
def execLds (b : ByteVec) (s : State) : Answer := .next (loadS b s)

/-- LDK: `K <- grid(k)`, `KW <- 1`, in any state (R61). -/
def execLdk (k : ByteVec) (s : State) : Answer := .next (loadK k s)

end Sys2Proof.Machine
end

