-- ==== Sys2Proof/Machine/Mix.lean ====
section
/-!
DEFINITION. The mix stage, command MIX (43_mix.md R75): XOR alone (C4), from the old values of both cells (C2, R119).
-/

namespace Sys2Proof.Machine

/-- Both cells of each column become the XOR of the column's two old cells (R75). -/
def mixColumns (g : Grid) : Grid :=
  { c00 := g.c00 ^^^ g.c10, c01 := g.c01 ^^^ g.c11, c10 := g.c10 ^^^ g.c00, c11 := g.c11 ^^^ g.c01 }

/-- `S` after MIX. -/
def mixEffect (s : State) : State := writeS (mixColumns s.S) s

/-- MIX; `UnwrittenRead(S)` while `SW = 0` (R75). -/
def execMix (s : State) : Answer := readingS s (.next (mixEffect s))

end Sys2Proof.Machine
end

