-- ==== Sys2Proof/Machine/Nop.lean ====
section
/-!
DEFINITION. NOP (46_nop_readout_render.md R93).
-/

namespace Sys2Proof.Machine

/-- NOP leaves `S`, `K`, `SW` and `KW` as they are, in any state (R93). -/
def execNop (s : State) : Answer := .next s

end Sys2Proof.Machine
end

