-- ==== Sys2Proof/Machine/Shift.lean ====
section
/-!
DEFINITION. The shift stage, command SHIFT (42_shift.md R70): a swap of two whole cells, no bit of a cell moves inside
it (C4).
-/

namespace Sys2Proof.Machine

/-- The two cells of row 1 swapped, both read before either write; row 0 untouched (R70). -/
def swapRowOne (g : Grid) : Grid := { g with c10 := g.c11, c11 := g.c10 }

/-- `S` after SHIFT. -/
def shiftEffect (s : State) : State := writeS (swapRowOne s.S) s

/-- SHIFT; `UnwrittenRead(S)` while `SW = 0` (R70). -/
def execShift (s : State) : Answer := readingS s (.next (shiftEffect s))

end Sys2Proof.Machine
end

