-- ==== Sys2Proof/Machine/Substitute.lean ====
section
/-!
DEFINITION. The substitution stage, command SUB (41_substitute.md R65). `SBOX` is a parameter of the model (10_state.md
R15), so each function here is written for any table and the engine's own takes `Config.SBOX`.
-/

namespace Sys2Proof.Machine

/-- A cell after substitution under `table`: `zext_8(table[v[3:0]])` (R65). -/
def substituteCell (table : Nibble → Nibble) (v : Byte) : Byte := zext8 (table (lowNibble v))

/-- `S` after SUB under `table`. -/
def subEffectUnder (table : Nibble → Nibble) (s : State) : State := writeS (mapCells (substituteCell table) s.S) s

/-- SUB under `table` (R65). -/
def execSubUnder (table : Nibble → Nibble) (s : State) : Answer := readingS s (.next (subEffectUnder table s))

/-- SUB: every cell of `S` becomes `zext_8(SBOX[S[r][c][3:0]])`; `UnwrittenRead(S)` while `SW = 0` (R65). -/
def execSub (s : State) : Answer := execSubUnder Config.SBOX s

end Sys2Proof.Machine
end

