-- ==== Sys2Proof/Machine/Round.lean ====
section
/-!
DEFINITION. The round orchestration, command ENC (45_round.md R85, R86): the effects of the other commands in the
document's order, as one step.
-/

namespace Sys2Proof.Machine

/-- The state after ENC under `table`, R85's steps 1 to 6 read from the inside out. -/
def encEffectUnder (table : Nibble → Nibble) (b k : ByteVec) (s : State) : State :=
  arkEffect (mixEffect (shiftEffect (subEffectUnder table (arkEffect (loadK k (loadS b s))))))

/-- ENC under `table`. -/
def execEncUnder (table : Nibble → Nibble) (b k : ByteVec) (s : State) : Answer := .next (encEffectUnder table b k s)

/-- ENC: construct, combine, substitute, shift, mix, combine. It loads both registers before it reads them, so it faults
in no state (R85). -/
def execEnc (b k : ByteVec) (s : State) : Answer := execEncUnder Config.SBOX b k s

end Sys2Proof.Machine
end

