-- ==== Sys2Proof/Machine/Dispatch.lean ====
section
/-!
DEFINITION. The dispatch: one arm per command, one meaning per arm.
-/

namespace Sys2Proof.Machine

/-- What the engine does with one command. -/
def exec (i : Instr) (s : State) : Host.Outcome State Fault Refusal :=
  match i with
  | .nop => Sys2Proof.Machine.execNop s
  | .lds b => Sys2Proof.Machine.execLds b s
  | .ldk k => Sys2Proof.Machine.execLdk k s
  | .ark => Sys2Proof.Machine.execArk s
  | .sub => Sys2Proof.Machine.execSub s
  | .shift => Sys2Proof.Machine.execShift s
  | .mix => Sys2Proof.Machine.execMix s
  | .enc b k => Sys2Proof.Machine.execEnc b k s

end Sys2Proof.Machine
end

