-- ==== Sys2Proof/Machine/Run.lean ====
section
/-!
DEFINITION. Accepting commands (30_encoding.md R46) and runs of commands (20_memory.md R38; 60_exceptions.md R103, R104;
70_reset_and_hazards.md R126).
-/

namespace Sys2Proof.Machine

/-- The step of one accepted command word: decode it, execute it, count it (R46). -/
def accept (w : CommandWord) (s : State) : Answer := onNext countCommand (exec (decode w) s)

/-- The engine with no command offered: nothing happens, and the state is held for any length of time (R46, R113).
DEDUCED, log entry 7. -/
def idle (s : State) : Answer := .next s

/-- The next command of the host's program is accepted and leaves the program; with none left the engine idles. -/
def issueNext (s : State) : Answer :=
  match s.program with
  | [] => idle s
  | w :: rest => onNext (setProgram rest) (accept w s)

/-- `w` put in the place of the next command of the host's program. -/
def offer (w : CommandWord) (s : State) : State := setProgram (w :: s.program.drop 1) s

/-- How a run of commands ends (R103, R126). -/
inductive RunEnd where
  /-- The last command has completed: a completed run, in the state it left. -/
  | completed (s : State)
  /-- A command faulted; the state is the one before it (R103, R104). -/
  | faulted (r : Fault) (s : State)
  /-- A command had no meaning; no command of the engine ends so (R50). -/
  | refusedAt (r : Refusal) (s : State)
deriving DecidableEq, Repr

/-- The commands taken in order, each complete before the next, up to the first fault (R38, R103). -/
def runCommands : List CommandWord → State → RunEnd
  | [], s => .completed s
  | w :: ws, s =>
    match accept w s with
    | .next t => runCommands ws t
    | .fault r => .faulted r s
    | .refused r => .refusedAt r s

end Sys2Proof.Machine
end

