-- ==== Sys2Proof/Machine/Step.lean ====
section
/-!
DEFINITION. One step of the machine, and how the host places an instruction for it.
-/

namespace Sys2Proof.Machine

/-- One step: the engine accepts the next command of the host's program, or idles when the host offers none. -/
def step (s : State) : Host.Outcome State Fault Refusal := issueNext s

/-- `s` with the instruction whose bits are `w` as the next command of the host's program; the commands after it stay.
The engine fetches nothing: the program comes from outside (30_encoding.md R46; log entry 5). -/
def State.withFetchWord (s : State) (nbits w : Nat) : State := offer (BitVec.ofNat 67 (w % 2 ^ nbits)) s

end Sys2Proof.Machine
end

