-- ==== Sys2Proof/Machine/Assembler.lean ====
section
/-!
DEFINITION. The assembler of 30_encoding.md section 5: source lines, aliases (R54), the pseudo-instructions `ROUND` and
`DEMO` (R55, R56), and the reading of one line of text (R53). A text is a list of characters.
-/

namespace Sys2Proof.Machine

/-! ## Source lines -/

/-- What a line names (R53 to R56). -/
inductive LineName where
  | nop | lds | ldk | ark | sub | shift | mix | enc | round | demo
deriving DecidableEq, Repr

/-- A source line: a name, the numbers before the `;` and the numbers after it, as they were written. The one operand of
LDS or of LDK is `first`; ENC has its block bytes in `first` and its key bytes in `second` (R53). -/
structure SourceLine where
  name : LineName
  first : List Nat
  second : List Nat
deriving DecidableEq, Repr

/-- A four-byte operand: exactly four numbers (C7), each below 256 (R53). -/
def fourBytes : List Nat → Option ByteVec
  | [n0, n1, n2, n3] =>
    if n0 < 256 ∧ n1 < 256 ∧ n2 < 256 ∧ n3 < 256 then
      some { b0 := BitVec.ofNat 8 n0, b1 := BitVec.ofNat 8 n1, b2 := BitVec.ofNat 8 n2, b3 := BitVec.ofNat 8 n3 }
    else none
  | _ => none

/-- The five commands of the pseudo-instruction `ROUND` (R55). -/
def roundCommands : List Instr := [.ark, .sub, .shift, .mix, .ark]

/-- The demonstration's plaintext (R56). -/
def demoBlock : ByteVec := { b0 := 0x01, b1 := 0x02, b2 := 0x03, b3 := 0x04 }

/-- The demonstration's key (R56). -/
def demoKey : ByteVec := { b0 := 0x0a, b1 := 0x0b, b2 := 0x0c, b3 := 0x0d }

/-- The commands of a name that takes no operand. -/
def plain (cs : List Instr) (l : SourceLine) : Option (List Instr) :=
  if l.first = [] ∧ l.second = [] then some cs else none

/-- The commands a line stands for; `none` where its operands are not those R53 gives the name. -/
def commandsOf (l : SourceLine) : Option (List Instr) :=
  match l.name with
  | .nop => plain [.nop] l
  | .lds => if l.second = [] then (fourBytes l.first).map fun b => [.lds b] else none
  | .ldk => if l.second = [] then (fourBytes l.first).map fun k => [.ldk k] else none
  | .ark => plain [.ark] l
  | .sub => plain [.sub] l
  | .shift => plain [.shift] l
  | .mix => plain [.mix] l
  | .enc => (fourBytes l.first).bind fun b => (fourBytes l.second).map fun k => [.enc b k]
  | .round => plain roundCommands l
  | .demo => plain [.enc demoBlock demoKey] l

/-- A line the assembler accepts. -/
def lineWellFormed (l : SourceLine) : Bool := (commandsOf l).isSome

/-- The command words of a line, ignored fields zero (R53). -/
def assembleLine (l : SourceLine) : Option (List CommandWord) := (commandsOf l).map fun cs => cs.map encode

/-- The command words of a program, line after line. -/
def assemble : List SourceLine → Option (List CommandWord)
  | [] => some []
  | l :: ls => (assembleLine l).bind fun ws => (assemble ls).map fun rest => ws ++ rest

/-! ## One line of text -/

/-- The names a line may begin with: the mnemonics and pseudo-instructions (R53, R55, R56) and the document's function
names (R54). `new` is not among them: it stands for LDS or for LDK by its use, not by its spelling (log entry 13). -/
def lineNames : List (List Char × LineName) :=
  [ (['N', 'O', 'P'], .nop), (['L', 'D', 'S'], .lds), (['L', 'D', 'K'], .ldk), (['A', 'R', 'K'], .ark),
    (['S', 'U', 'B'], .sub), (['S', 'H', 'I', 'F', 'T'], .shift), (['M', 'I', 'X'], .mix), (['E', 'N', 'C'], .enc),
    (['R', 'O', 'U', 'N', 'D'], .round), (['D', 'E', 'M', 'O'], .demo),
    (['s', 'u', 'b', '_', 'b', 'y', 't', 'e', 's'], .sub),
    (['s', 'h', 'i', 'f', 't', '_', 'r', 'o', 'w', 's'], .shift),
    (['m', 'i', 'x', '_', 'c', 'o', 'l', 'u', 'm', 'n', 's'], .mix),
    (['a', 'd', 'd', '_', 'r', 'o', 'u', 'n', 'd', '_', 'k', 'e', 'y'], .ark),
    (['e', 'n', 'c', 'r', 'y', 'p', 't'], .enc) ]

/-- What a written name stands for. -/
def nameOf (cs : List Char) : Option LineName := (lineNames.find? fun p => p.1 = cs).map fun p => p.2

/-- The text before a comment, which runs from `--` to the end of the line (R53). -/
def withoutComment : List Char → List Char
  | [] => []
  | '-' :: '-' :: _ => []
  | c :: cs => c :: withoutComment cs

/-- What a line is made of. -/
inductive Token where
  | word (cs : List Char)
  | comma
  | semicolon
deriving DecidableEq, Repr

/-- The word collected so far (its last character first), if any, before what follows. -/
def closeWord (collected : List Char) (rest : List Token) : List Token :=
  match collected with
  | [] => rest
  | c :: cs => .word (c :: cs).reverse :: rest

/-- The tokens of a text: words are separated by white space, `,` and `;`. -/
def tokensFrom (collected : List Char) : List Char → List Token
  | [] => closeWord collected []
  | c :: cs =>
    if c = ',' then closeWord collected (.comma :: tokensFrom [] cs)
    else if c = ';' then closeWord collected (.semicolon :: tokensFrom [] cs)
    else if c = ' ' ∨ c = '\t' then closeWord collected (tokensFrom [] cs)
    else tokensFrom (c :: collected) cs

/-- The value of a decimal digit. -/
def decimalDigit (c : Char) : Option Nat :=
  if 48 ≤ c.toNat ∧ c.toNat ≤ 57 then some (c.toNat - 48) else none

/-- The value of a hexadecimal digit, in either case. -/
def hexValue (c : Char) : Option Nat :=
  if 97 ≤ c.toNat ∧ c.toNat ≤ 102 then some (c.toNat - 87)
  else if 65 ≤ c.toNat ∧ c.toNat ≤ 70 then some (c.toNat - 55)
  else decimalDigit c

/-- The value of decimal digits read after the value `n`. -/
def decimalFrom (n : Nat) : List Char → Option Nat
  | [] => some n
  | c :: cs => (decimalDigit c).bind fun d => decimalFrom (10 * n + d) cs

/-- A written number: `0x` and two hexadecimal digits, or decimal digits (R53). -/
def numberOf : List Char → Option Nat
  | ['0', 'x', h, l] => (hexValue h).bind fun a => (hexValue l).map fun b => 16 * a + b
  | [] => none
  | c :: cs => decimalFrom 0 (c :: cs)

/-- Numbers separated by commas, up to a `;` or the end, and what follows them. -/
def numbersOf : List Token → Option (List Nat × List Token)
  | .word w :: .comma :: rest => (numberOf w).bind fun n => (numbersOf rest).map fun p => (n :: p.1, p.2)
  | .word w :: rest => (numberOf w).map fun n => ([n], rest)
  | _ => none

/-- The operands of a line: none, one list, or two lists with `;` between them. -/
def operandsOf : List Token → Option (List Nat × List Nat)
  | [] => some ([], [])
  | t :: ts =>
    (numbersOf (t :: ts)).bind fun p =>
      match p.2 with
      | [] => some (p.1, [])
      | .semicolon :: more => (numbersOf more).bind fun q => if q.2 = [] then some (p.1, q.1) else none
      | _ => none

/-- A line of text: `some none` for a blank or comment line, `some (some l)` for a source line, `none` where it is no line
of R53 (log entry 13). -/
def readLine (text : List Char) : Option (Option SourceLine) :=
  match tokensFrom [] (withoutComment text) with
  | [] => some none
  | .word w :: rest =>
    (nameOf w).bind fun n => (operandsOf rest).map fun p => some { name := n, first := p.1, second := p.2 }
  | _ => none

end Sys2Proof.Machine
end

