-- ==== Sys2Proof/Machine/System.lean ====
section
/-!
DEFINITION. Several engines (20_memory.md R43; 60_exceptions.md R111): a product of independent states that share the
constant `SBOX` and nothing else. How many there are is the platform's choice (D21, U16; log entry 15).
-/

namespace Sys2Proof.Machine

/-- One engine of a system. A fault ends its own run (60_exceptions.md R103) and no other engine's. -/
inductive Engine where
  /-- Its run goes on. -/
  | running (s : State)
  /-- Its run has ended in a fault; the state is the one before the command that faulted (R104). -/
  | faulted (r : Fault) (s : State)
  /-- Its run has ended because a command had no meaning; no command of the engine ends so (R50). -/
  | refusedAt (r : Refusal) (s : State)
deriving DecidableEq, Repr

/-- One step of one engine; an engine whose run has ended takes no further step (R103). -/
def stepEngine : Engine → Engine
  | .running s =>
    match step s with
    | .next t => .running t
    | .fault r => .faulted r s
    | .refused r => .refusedAt r s
  | .faulted r s => .faulted r s
  | .refusedAt r s => .refusedAt r s

/-- The engines of a system, each with its own `S`, `K`, `SW`, `KW` and its own commands (R43). -/
abbrev System := List Engine

/-- Engine `n` takes one step; a number that names no engine changes nothing. -/
def stepOf (n : Nat) (engines : System) : System := engines.modify n stepEngine

/-- The engines take their steps in the order of `turns`. -/
def interleave : List Nat → System → System
  | [], engines => engines
  | n :: turns, engines => interleave turns (stepOf n engines)

/-- `n` steps of one engine on its own. -/
def stepsOfEngine : Nat → Engine → Engine
  | 0, e => e
  | n + 1, e => stepsOfEngine n (stepEngine e)

end Sys2Proof.Machine
end

