-- ==== Sys2Proof/Machine/CarryOn.lean ====
section
/-!
DEFINITION. What the hardware does where the model faults. `UnwrittenRead` is the model's fault and not the hardware's: a
hardware engine would carry on and compute from the unspecified register content (60_exceptions.md R102). `carryOn` is
that engine, defined in every state; in the model the written tags are checked before it (R102, R105). The access matrix
of 10_state.md R14 says which registers a command reads and loads.
-/

namespace Sys2Proof.Machine

/-- What the command does to the registers, whatever the tags say. Where a tag the command reads is 0 the content it
computes from is unspecified (R23, R24), so nothing may be claimed of its result (log entry 2). -/
def carryOn (i : Instr) (s : State) : State :=
  match i with
  | .nop => s
  | .lds b => loadS b s
  | .ldk k => loadK k s
  | .ark => arkEffect s
  | .sub => subEffectUnder Config.SBOX s
  | .shift => shiftEffect s
  | .mix => mixEffect s
  | .enc b k => encEffectUnder Config.SBOX b k s

/-- The old content of `S` is read by the command (R14). -/
def readsS : Instr → Bool
  | .nop => false
  | .lds _ => false
  | .ldk _ => false
  | .ark => true
  | .sub => true
  | .shift => true
  | .mix => true
  | .enc _ _ => false

/-- The old content of `K` is read by the command (R14). -/
def readsK : Instr → Bool
  | .nop => false
  | .lds _ => false
  | .ldk _ => false
  | .ark => true
  | .sub => false
  | .shift => false
  | .mix => false
  | .enc _ _ => false

/-- All of `S` is loaded from an operand, so that `SW` becomes 1 (R14). -/
def loadsS : Instr → Bool
  | .nop => false
  | .lds _ => true
  | .ldk _ => false
  | .ark => false
  | .sub => false
  | .shift => false
  | .mix => false
  | .enc _ _ => true

/-- All of `K` is loaded from an operand, so that `KW` becomes 1 (R14). -/
def loadsK : Instr → Bool
  | .nop => false
  | .lds _ => false
  | .ldk _ => true
  | .ark => false
  | .sub => false
  | .shift => false
  | .mix => false
  | .enc _ _ => true

end Sys2Proof.Machine
end

