-- ==== Sys2Proof/Machine/Ports.lean ====
section
/-!
DEFINITION. The engine at its ports (30_encoding.md R45, R46): one clock edge, and the outputs between steps
(46_nop_readout_render.md R94 to R96).
-/

namespace Sys2Proof.Machine

/-- The input ports at one clock edge. `clk` is the edge itself; the model has no time (70_reset_and_hazards.md R125). -/
structure EdgeInput where
  rst : Bool
  cmdValid : Bool
  cmdOp : BitVec 3
  cmdKin : PortWord
  cmdDin : PortWord
deriving DecidableEq, Repr

/-- The command word on the ports (R45). -/
def portWord (e : EdgeInput) : CommandWord := commandWord e.cmdOp e.cmdKin e.cmdDin

/-- `cmd_ready` between steps, the only moments the model has: 1 (R46, R113). It is 0 only while a command executes,
which is inside one step. Log entry 9. -/
def cmdReady (_s : State) : Bool := true

/-- One clock edge at which no command is executing: reset wins (70_reset_and_hazards.md R115, R116); a command is
accepted when it is valid and the engine ready; else nothing happens (R46). -/
def edge (e : EdgeInput) (s : State) : Answer :=
  bif e.rst then .next (resetEvent s)
  else bif e.cmdValid && cmdReady s then accept (portWord e) s
  else idle s

/-- `dout_valid` equals `SW` (R95). -/
def doutValid (s : State) : Bool := s.SW

/-- The grid `dout` shows: `S`, and while `SW = 0` a free value (R94, U4). DESIGN CHOICE, log entry 4. -/
def shownGrid (s : State) : Grid := bif s.SW then s.S else Config.doutUnwritten s.epoch s.index

/-- `dout`: `dout[8i+7:8i] = bytes(S)[i]`, all 8 bits of every cell (R94). -/
def dout (s : State) : PortWord := packBytes (bytes (shownGrid s))

/-- The observation a model offers of the engine: the pair (`SW`, `S`) (R94). `K` and `KW` are on no port (R96). -/
def observe (s : State) : Bool × Grid := (doutValid s, shownGrid s)

/-- The result of a run: the observation after a completed run, none after a fault (70_reset_and_hazards.md R126). -/
def resultOf : RunEnd → Option (Bool × Grid)
  | .completed s => some (observe s)
  | .faulted _ _ => none
  | .refusedAt _ _ => none

end Sys2Proof.Machine
end

