-- ==== Sys2Proof/Safety.lean ====
section
/-!
DEFINITION. What counts as a safe run, and the invariants claims are stated with.
-/

namespace Sys2Proof.Machine

/-! ## Runs without a fault -/

/-- The registers a command reads have been loaded (60_exceptions.md R102). -/
def loadedFor (i : Instr) (sw kw : Bool) : Bool := (!readsS i || sw) && (!readsK i || kw)

/-- What the host must do first (70_reset_and_hazards.md R117): from the tags `sw` and `kw`, every command of the list
comes after the loads it needs. -/
def loadsFirst : Bool → Bool → List Instr → Bool
  | _, _, [] => true
  | sw, kw, i :: is => loadedFor i sw kw && loadsFirst (loadsS i || sw) (loadsK i || kw) is

/-! ## Invariants -/

/-- A register whose tag is 0 still holds what reset left in it: the tags tell the truth (10_state.md R17, R23, R24).
The reset content is a free value, and the invariant holds whatever it is (log entry 3). -/
def UnwrittenHoldsReset (s : State) : Prop :=
  (s.SW = false → s.S = Config.resetS s.epoch) ∧ (s.KW = false → s.K = Config.resetK s.epoch)

/-- The operand bytes of a command that it reads are all in [0,15]. -/
def lowOperands : Instr → Bool
  | .nop => true
  | .lds b => lowCells (grid b)
  | .ldk k => lowCells (grid k)
  | .ark => true
  | .sub => true
  | .shift => true
  | .mix => true
  | .enc b k => lowCells (grid b) && lowCells (grid k)

/-- Loaded registers hold cells in [0,15] only, and so do the operands still to come. Nothing in the engine enforces it
(R13, C1); a host that keeps to such bytes keeps it. -/
def LowNibbleRun (s : State) : Prop :=
  (s.SW = true → lowCells s.S = true) ∧ (s.KW = true → lowCells s.K = true) ∧
    ∀ w ∈ s.program, lowOperands (decode w) = true

/-! ## Comparing runs -/

/-- The engine's own state is the same; the model's bookkeeping may differ. -/
def sameRegisters (s t : State) : Prop := s.S = t.S ∧ s.K = t.K ∧ s.SW = t.SW ∧ s.KW = t.KW

/-- Two runs end alike: both complete, or both fault on the same register, with the same state of the engine. -/
def sameEnd : RunEnd → RunEnd → Prop
  | .completed s, .completed t => sameRegisters s t
  | .faulted (.unwrittenRead which _) s, .faulted (.unwrittenRead which' _) t => which = which' ∧ sameRegisters s t
  | _, _ => False

/-- Two states look alike from outside: the same on everything but `K` and `KW`, which are on no port (R96). -/
def sameButKey (s t : State) : Prop :=
  s.S = t.S ∧ s.SW = t.SW ∧ s.program = t.program ∧ s.index = t.index ∧ s.epoch = t.epoch

end Sys2Proof.Machine
end

