-- ==== Sys2Proof/WellFormed.lean ====
section
/-!
DEFINITION. Well-formedness of commands and of the words an assembler writes.
-/

namespace Sys2Proof

/-- Every command is well formed: every byte value is a legal operand (60_exceptions.md R100) and every command word a
legal command (30_encoding.md R50). There is no check to fail, because an operand is four bytes by its type (R4, C7).
DEDUCED, log entry 16. -/
def Instr.wellFormed : Instr → Bool
  | .nop => true
  | .lds _ => true
  | .ldk _ => true
  | .ark => true
  | .sub => true
  | .shift => true
  | .mix => true
  | .enc _ _ => true

/-- The form the assembler writes: every bit the command ignores is zero (30_encoding.md R48, R53). The decoder accepts
the other words too. -/
def canonicalWord (w : CommandWord) : Bool := w &&& usedBits (decode w) == w

end Sys2Proof
end

