-- ==== Sys2Proof/Certificates/Slice0/Obligations.lean ====
section
/-!
DEFINITION. The statements about the engine, each from a rule of spec/. A statement about what a command does gives the
whole next state as a record update, so that every field it does not name is unchanged: that is its frame.
-/

open Sys2Proof Sys2Proof.Machine

/-! ## What each command does -/

/-- R93. NOP is `op = 0` whatever the other bits, and leaves the state as it is, in any state; and any number of NOP
anywhere in a program leaves what the program does as it is: both runs complete, or both fault on the same register, with
the same `S`, `K`, `SW` and `KW`. -/
def Obligations.NopChangesNothing : Prop :=
  (∀ kin din : PortWord, decode (commandWord 0 kin din) = .nop) ∧ (∀ s : State, exec .nop s = .next s) ∧
  ∀ (before after nops : List CommandWord) (s : State), (∀ w ∈ nops, decode w = .nop) →
    sameEnd (runCommands (before ++ nops ++ after) s) (runCommands (before ++ after) s)

/-- R60. LDS is `op = 1` with the block bytes in the lanes of `din`; in any state `S` becomes their grid and `SW` 1, and
nothing else changes. -/
def Obligations.LdsLoadsTheDataState : Prop :=
  (∀ kin din : PortWord, decode (commandWord 1 kin din) =
    .lds ⟨din.extractLsb' 0 8, din.extractLsb' 8 8, din.extractLsb' 16 8, din.extractLsb' 24 8⟩) ∧
  ∀ (b : ByteVec) (s : State), exec (.lds b) s = .next { s with S := ⟨b.b0, b.b1, b.b2, b.b3⟩, SW := true }

/-- R61. LDK is `op = 2` with the key bytes in the lanes of `kin`; in any state `K` becomes their grid and `KW` 1, and
nothing else changes. -/
def Obligations.LdkLoadsTheRoundKey : Prop :=
  (∀ kin din : PortWord, decode (commandWord 2 kin din) =
    .ldk ⟨kin.extractLsb' 0 8, kin.extractLsb' 8 8, kin.extractLsb' 16 8, kin.extractLsb' 24 8⟩) ∧
  ∀ (k : ByteVec) (s : State), exec (.ldk k) s = .next { s with K := ⟨k.b0, k.b1, k.b2, k.b3⟩, KW := true }

/-- R80. ARK is `op = 3`; it faults on `S` while `SW = 0`, else on `K` while `KW = 0`, and otherwise XORs every cell of
`S` with the same cell of `K` on all 8 bits, changing nothing else. -/
def Obligations.ArkXorsTheKeyIntoTheState : Prop :=
  (∀ kin din : PortWord, decode (commandWord 3 kin din) = .ark) ∧
  (∀ s : State, s.SW = false → exec .ark s = .fault (.unwrittenRead .S s.index)) ∧
  (∀ s : State, s.SW = true → s.KW = false → exec .ark s = .fault (.unwrittenRead .K s.index)) ∧
  ∀ s : State, s.SW = true → s.KW = true →
    exec .ark s = .next { s with S := ⟨s.S.c00 ^^^ s.K.c00, s.S.c01 ^^^ s.K.c01, s.S.c10 ^^^ s.K.c10, s.S.c11 ^^^ s.K.c11⟩ }

/-- R65. SUB is `op = 4`; it faults on `S` while `SW = 0`, and otherwise every cell becomes the table's entry at the
cell's low nibble, zero-extended to 8 bits, changing nothing else. -/
def Obligations.SubSubstitutesEveryCell : Prop :=
  (∀ kin din : PortWord, decode (commandWord 4 kin din) = .sub) ∧
  (∀ s : State, s.SW = false → exec .sub s = .fault (.unwrittenRead .S s.index)) ∧
  ∀ s : State, s.SW = true →
    exec .sub s = .next { s with S :=
      ⟨(Config.SBOX (s.S.c00.extractLsb' 0 4)).setWidth 8, (Config.SBOX (s.S.c01.extractLsb' 0 4)).setWidth 8,
       (Config.SBOX (s.S.c10.extractLsb' 0 4)).setWidth 8, (Config.SBOX (s.S.c11.extractLsb' 0 4)).setWidth 8⟩ }

/-- R70. SHIFT is `op = 5`; it faults on `S` while `SW = 0`, and otherwise swaps the two cells of row 1, changing nothing
else. -/
def Obligations.ShiftSwapsRowOne : Prop :=
  (∀ kin din : PortWord, decode (commandWord 5 kin din) = .shift) ∧
  (∀ s : State, s.SW = false → exec .shift s = .fault (.unwrittenRead .S s.index)) ∧
  ∀ s : State, s.SW = true →
    exec .shift s = .next { s with S := ⟨s.S.c00, s.S.c01, s.S.c11, s.S.c10⟩ }

/-- R75. MIX is `op = 6`; it faults on `S` while `SW = 0`, and otherwise both cells of each column become the XOR of the
column's two old cells, changing nothing else. -/
def Obligations.MixXorsEachColumn : Prop :=
  (∀ kin din : PortWord, decode (commandWord 6 kin din) = .mix) ∧
  (∀ s : State, s.SW = false → exec .mix s = .fault (.unwrittenRead .S s.index)) ∧
  ∀ s : State, s.SW = true →
    exec .mix s = .next { s with S :=
      ⟨s.S.c00 ^^^ s.S.c10, s.S.c01 ^^^ s.S.c11, s.S.c00 ^^^ s.S.c10, s.S.c01 ^^^ s.S.c11⟩ }

/-- R85. ENC is `op = 7` with the block bytes in `din` and the key bytes in `kin`; in any state it loads both, combines,
substitutes, shifts, mixes and combines again, leaves `K` and both tags as loaded, and changes nothing else. -/
def Obligations.EncPerformsTheSixActions : Prop :=
  (∀ kin din : PortWord, decode (commandWord 7 kin din) =
    .enc ⟨din.extractLsb' 0 8, din.extractLsb' 8 8, din.extractLsb' 16 8, din.extractLsb' 24 8⟩
      ⟨kin.extractLsb' 0 8, kin.extractLsb' 8 8, kin.extractLsb' 16 8, kin.extractLsb' 24 8⟩) ∧
  ∀ (b k : ByteVec) (s : State),
    let entry : Byte → Byte := fun v => (Config.SBOX (v.extractLsb' 0 4)).setWidth 8
    let combined : Grid := ⟨b.b0 ^^^ k.b0, b.b1 ^^^ k.b1, b.b2 ^^^ k.b2, b.b3 ^^^ k.b3⟩
    let substituted : Grid := ⟨entry combined.c00, entry combined.c01, entry combined.c10, entry combined.c11⟩
    let shifted : Grid := ⟨substituted.c00, substituted.c01, substituted.c11, substituted.c10⟩
    let mixed : Grid := ⟨shifted.c00 ^^^ shifted.c10, shifted.c01 ^^^ shifted.c11,
      shifted.c00 ^^^ shifted.c10, shifted.c01 ^^^ shifted.c11⟩
    exec (.enc b k) s = .next { s with
      S := ⟨mixed.c00 ^^^ k.b0, mixed.c01 ^^^ k.b1, mixed.c10 ^^^ k.b2, mixed.c11 ^^^ k.b3⟩,
      K := ⟨k.b0, k.b1, k.b2, k.b3⟩, SW := true, KW := true }

/-! ## The round as a whole -/

/-- R88 (the spec's derivation). The closed form of the round, and what follows from it for every table: a column's two
output cells differ by the key's, and a column's mixed nibble is 0 exactly when its two whitened nibbles are equal. -/
def Obligations.RoundHasItsClosedForm : Prop :=
  ∀ (b k : ByteVec) (s : State),
    let x0 : Nibble := (b.b0 ^^^ k.b0).extractLsb' 0 4
    let x1 : Nibble := (b.b1 ^^^ k.b1).extractLsb' 0 4
    let x2 : Nibble := (b.b2 ^^^ k.b2).extractLsb' 0 4
    let x3 : Nibble := (b.b3 ^^^ k.b3).extractLsb' 0 4
    let m0 : Nibble := Config.SBOX x0 ^^^ Config.SBOX x3
    let m1 : Nibble := Config.SBOX x1 ^^^ Config.SBOX x2
    ∃ t, exec (.enc b k) s = .next t ∧
      t.S = ⟨m0.setWidth 8 ^^^ k.b0, m1.setWidth 8 ^^^ k.b1, m0.setWidth 8 ^^^ k.b2, m1.setWidth 8 ^^^ k.b3⟩ ∧
      t.S.c00 ^^^ t.S.c10 = k.b0 ^^^ k.b2 ∧ t.S.c01 ^^^ t.S.c11 = k.b1 ^^^ k.b3 ∧
      (m0 = 0 ↔ x0 = x3) ∧ (m1 = 0 ↔ x1 = x2)

/-- R88 (b) (the spec's derivation). For a fixed key the output takes at most 256 values. -/
def Obligations.RoundOutputTakesAtMost256Values : Prop :=
  ∀ k : ByteVec, ∃ outputs : List Grid, outputs.length ≤ 256 ∧
    ∀ (b : ByteVec) (s : State), ∃ t, exec (.enc b k) s = .next t ∧ t.S ∈ outputs

/-- R89 (the spec's derivation). The high nibble of each output cell is the high nibble of its key byte; blocks that
agree on their low nibbles have the same result; with key bytes in [0,15] every output cell is in [0,15]. -/
def Obligations.HighNibblesOfTheRoundAreTheKeys : Prop :=
  (∀ (b k : ByteVec) (s : State), ∃ t, exec (.enc b k) s = .next t ∧
    t.S.c00.extractLsb' 4 4 = k.b0.extractLsb' 4 4 ∧ t.S.c01.extractLsb' 4 4 = k.b1.extractLsb' 4 4 ∧
    t.S.c10.extractLsb' 4 4 = k.b2.extractLsb' 4 4 ∧ t.S.c11.extractLsb' 4 4 = k.b3.extractLsb' 4 4 ∧
    (k.b0.toNat < 16 → k.b1.toNat < 16 → k.b2.toNat < 16 → k.b3.toNat < 16 →
      t.S.c00.toNat < 16 ∧ t.S.c01.toNat < 16 ∧ t.S.c10.toNat < 16 ∧ t.S.c11.toNat < 16)) ∧
  ∀ (b b' k : ByteVec) (s : State),
    b.b0.extractLsb' 0 4 = b'.b0.extractLsb' 0 4 → b.b1.extractLsb' 0 4 = b'.b1.extractLsb' 0 4 →
    b.b2.extractLsb' 0 4 = b'.b2.extractLsb' 0 4 → b.b3.extractLsb' 0 4 = b'.b3.extractLsb' 0 4 →
    exec (.enc b k) s = exec (.enc b' k) s

/-- R90 and R88 (b) (the spec's derivation). For every key there are two blocks that ENC takes to the very same next
state, so nothing done afterwards tells them apart; and some block does not come back when the output is encrypted
again with the same key. -/
def Obligations.RoundHasNoInverse : Prop :=
  (∀ k : ByteVec, ∃ b b' : ByteVec, b ≠ b' ∧ ∀ s : State, exec (.enc b k) s = exec (.enc b' k) s) ∧
  ∀ k : ByteVec, ∃ b : ByteVec, ∀ s : State, ∃ t u : State,
    exec (.enc b k) s = .next t ∧ exec (.enc (bytes t.S) k) t = .next u ∧ u.S ≠ grid b

/-- R87 (the spec's derivation). From any state ENC, and `LDS b; LDK k; ARK; SUB; SHIFT; MIX; ARK`, and the same with the
loads exchanged, all complete, with the same `S`, `K`, `SW` and `KW`. -/
def Obligations.EncEqualsItsExpansion : Prop :=
  ∀ (b k : ByteVec) (s : State), ∃ t u v : State,
    runCommands [encode (.enc b k)] s = .completed t ∧
    runCommands ([.lds b, .ldk k, .ark, .sub, .shift, .mix, .ark].map encode) s = .completed u ∧
    runCommands ([.ldk k, .lds b, .ark, .sub, .shift, .mix, .ark].map encode) s = .completed v ∧
    sameRegisters t u ∧ sameRegisters t v

/-- R91 and R18 (the spec's derivation). The `S`, `K` and tags that ENC leaves do not depend on the state before it, and
an ENC before it leaves no trace. -/
def Obligations.EncForgetsTheStateBefore : Prop :=
  (∀ (b k : ByteVec) (s s' : State), ∃ t t', exec (.enc b k) s = .next t ∧ exec (.enc b k) s' = .next t' ∧
    sameRegisters t t') ∧
  ∀ (b k b' k' : ByteVec) (s : State), ∃ t u v, exec (.enc b k) s = .next t ∧ exec (.enc b' k') t = .next u ∧
    exec (.enc b' k') s = .next v ∧ u = v

/-! ## Laws of the commands -/

/-- R42 (partly the spec's derivation). A command repeated: NOP, LDS, LDK and ENC change nothing the second time, SHIFT
and ARK come back, MIX leaves zeros, SUB looks its own result up again. -/
def Obligations.RepetitionLaws : Prop :=
  (∀ (i : Instr) (s : State), (i = .nop ∨ (∃ b, i = .lds b) ∨ (∃ k, i = .ldk k) ∨ (∃ b k, i = .enc b k)) →
    ∃ t, exec i s = .next t ∧ exec i t = .next t) ∧
  (∀ s : State, s.SW = true → ∃ t, exec .shift s = .next t ∧ exec .shift t = .next s) ∧
  (∀ s : State, s.SW = true → s.KW = true → ∃ t, exec .ark s = .next t ∧ exec .ark t = .next s) ∧
  (∀ s : State, s.SW = true → ∃ t u, exec .mix s = .next t ∧ exec .mix t = .next u ∧ u.S = ⟨0, 0, 0, 0⟩) ∧
  ∀ s : State, s.SW = true → ∃ t u, exec .sub s = .next t ∧ exec .sub t = .next u ∧
    ∀ r c : Fin 2, cell u.S r c = (Config.SBOX (Config.SBOX ((cell s.S r c).extractLsb' 0 4))).setWidth 8

/-- R65 (d) (from the bijection R15 gives). On states whose cells are all in [0,15] SUB is one to one and onto; on all
states it is not one to one. -/
def Obligations.SubIsABijectionOfLowNibbles : Prop :=
  (∀ (g : Grid) (s : State), s.SW = true → lowCells g = true →
    ∃! h : Grid, lowCells h = true ∧ exec .sub { s with S := h } = .next { s with S := g }) ∧
  ∀ s : State, s.SW = true → ∃ g h : Grid, g ≠ h ∧ exec .sub { s with S := g } = exec .sub { s with S := h }

/-- R13 (clause b is the spec's derivation). After SUB every cell is in [0,15]; SHIFT and MIX keep cells in [0,15]; LDS,
LDK and ARK can put any values in the cells, so [0,15] is no invariant. -/
def Obligations.LowNibblesComeAndGo : Prop :=
  (∀ s : State, s.SW = true → ∃ t, exec .sub s = .next t ∧ lowCells t.S = true) ∧
  (∀ s : State, s.SW = true → lowCells s.S = true →
    (∃ t, exec .shift s = .next t ∧ lowCells t.S = true) ∧ ∃ t, exec .mix s = .next t ∧ lowCells t.S = true) ∧
  ∀ (g : Grid) (s : State),
    (∃ b t, exec (.lds b) s = .next t ∧ t.S = g) ∧ (∃ k t, exec (.ldk k) s = .next t ∧ t.K = g) ∧
    (s.SW = true → ∃ k t u, exec (.ldk k) s = .next t ∧ exec .ark t = .next u ∧ u.S = g)

/-- R96 (the spec's example). `LDS 0,0,0,0; ARK` with a loaded key shows the key on `dout`. -/
def Obligations.ZeroBlockRevealsTheKey : Prop :=
  ∀ s : State, s.KW = true → ∃ t u, exec (.lds ⟨0, 0, 0, 0⟩) s = .next t ∧ exec .ark t = .next u ∧
    observe u = (true, s.K) ∧ dout u = packBytes (bytes s.K)

/-! ## Which commands touch what -/

/-- R17, R14. The tags after a command: `SW` is 1 where it was or the command is LDS or ENC, `KW` is 1 where it was or the
command is LDK or ENC; so no command clears one. -/
def Obligations.CommandsOnlySetTags : Prop :=
  ∀ (i : Instr) (s t : State), exec i s = .next t →
    (t.SW = true ↔ s.SW = true ∨ (∃ b, i = .lds b) ∨ ∃ b k, i = .enc b k) ∧
    (t.KW = true ↔ s.KW = true ∨ (∃ k, i = .ldk k) ∨ ∃ b k, i = .enc b k)

/-- R12. Only LDK and ENC write `K`: a command that is neither leaves `K` and `KW` as they were. -/
def Obligations.OnlyLoadsWriteTheKey : Prop :=
  ∀ (i : Instr) (s t : State), exec i s = .next t → (∀ k, i ≠ .ldk k) → (∀ b k, i ≠ .enc b k) →
    t.K = s.K ∧ t.KW = s.KW

/-- R14 (the spec's derivation). What a command does not read does not matter. With another `K` and `KW`, a command other
than ARK answers the same `S` and `SW`, or faults alike. With another `S` and `SW`, NOP, LDS, LDK and ENC answer the same
`K` and `KW`. The old content of what a command loads is not read: LDS and ENC answer the same `S` and `SW` whatever
`S` and `SW` were, LDK and ENC the same `K` and `KW` whatever `K` and `KW` were. -/
def Obligations.UnreadRegistersDoNotMatter : Prop :=
  (∀ (i : Instr) (s : State) (g : Grid) (tag : Bool), i ≠ .ark →
    (∀ t, exec i s = .next t → ∃ u, exec i { s with K := g, KW := tag } = .next u ∧ u.S = t.S ∧ u.SW = t.SW) ∧
    ∀ f, exec i s = .fault f → exec i { s with K := g, KW := tag } = .fault f) ∧
  (∀ (i : Instr) (s : State) (g : Grid) (tag : Bool), i ≠ .ark → i ≠ .sub → i ≠ .shift → i ≠ .mix →
    ∃ t u, exec i s = .next t ∧ exec i { s with S := g, SW := tag } = .next u ∧ u.K = t.K ∧ u.KW = t.KW) ∧
  (∀ (i : Instr) (s : State) (g : Grid) (tag : Bool), (∃ b, i = .lds b) ∨ (∃ b k, i = .enc b k) →
    ∃ t u, exec i s = .next t ∧ exec i { s with S := g, SW := tag } = .next u ∧ u.S = t.S ∧ u.SW = t.SW) ∧
  ∀ (i : Instr) (s : State) (g : Grid) (tag : Bool), (∃ k, i = .ldk k) ∨ (∃ b k, i = .enc b k) →
    ∃ t u, exec i s = .next t ∧ exec i { s with K := g, KW := tag } = .next u ∧ u.K = t.K ∧ u.KW = t.KW

/-! ## Faults -/

/-- R102. A command faults exactly by the table: `UnwrittenRead(S)` (code 1) for ARK, SUB, SHIFT and MIX while `SW = 0`,
`UnwrittenRead(K)` (code 2) for ARK while `SW = 1` and `KW = 0`, each with the index of the command (the model's field,
log entry 6); nothing else faults. No command is refused (R8, R50). Where none faults the command does what `carryOn`
does, which is the model's reading of the hardware without the check (log entry 2, DEDUCED). -/
def Obligations.CommandsFaultExactlyByTheTable : Prop :=
  (∀ (i : Instr) (s : State) (f : Fault), exec i s = .fault f ↔
    (i = .ark ∨ i = .sub ∨ i = .shift ∨ i = .mix) ∧ s.SW = false ∧ f = .unwrittenRead .S s.index ∨
    i = .ark ∧ s.SW = true ∧ s.KW = false ∧ f = .unwrittenRead .K s.index) ∧
  (∀ n : Nat, faultCode (.unwrittenRead .S n) = 1 ∧ faultCode (.unwrittenRead .K n) = 2) ∧
  (∀ (i : Instr) (s : State) (r : Refusal), exec i s ≠ .refused r) ∧
  ∀ (i : Instr) (s : State), (∀ f, exec i s ≠ .fault f) → exec i s = .next (carryOn i s)

/-- R103, R104. A fault ends the run: whatever follows, the run ends in the state the commands before the faulting one
left, and it has no result (R126). The index it records (R102) is the model's field `index` at the start of the run (log
entry 6, a DESIGN CHOICE) plus the number of commands before it: in a run that starts at index 0, that number. -/
def Obligations.FaultEndsTheRun : Prop :=
  ∀ (ws rest : List CommandWord) (w : CommandWord) (s t : State) (f : Fault),
    runCommands ws s = .completed t → accept w t = .fault f →
    runCommands (ws ++ w :: rest) s = .faulted f t ∧ resultOf (runCommands (ws ++ w :: rest) s) = none ∧
    ∃ which, f = .unwrittenRead which (s.index + ws.length)

/-- R117. The host's one duty: a run of commands completes exactly when every command comes after the loads it needs (what
faults and what never does is R102), and it has a result exactly then (R126). -/
def Obligations.RunCompletesIffLoadsComeFirst : Prop :=
  ∀ (ws : List CommandWord) (s : State),
    ((∃ t, runCommands ws s = .completed t) ↔ loadsFirst s.SW s.KW (ws.map decode) = true) ∧
    ((resultOf (runCommands ws s)).isSome = true ↔ loadsFirst s.SW s.KW (ws.map decode) = true)

/-! ## Decoding and encoding -/

/-- R51. Decoding an encoded command gives it back, for every command and every operand byte. -/
def Obligations.DecodeOfEncodeIsTheCommand : Prop :=
  ∀ i : Instr, decode (encode i) = i

/-- R51 (the spec's derivation). Encoding a decoded word gives the word with its ignored bits zero. -/
def Obligations.EncodeOfDecodeClearsIgnoredBits : Prop :=
  ∀ w : CommandWord, encode (decode w) = w &&& usedBits (decode w)

/-- R48. Two words are the same command exactly when they have the same `op` and agree on every bit that command reads;
the encoder writes every bit a command ignores as zero. -/
def Obligations.IgnoredBitsDoNotMatter : Prop :=
  (∀ w v : CommandWord, decode w = decode v ↔
    opField w = opField v ∧ w &&& usedBits (decode w) = v &&& usedBits (decode w)) ∧
  ∀ i : Instr, canonicalWord (encode i) = true

/-- R47, R50. Every word belongs to exactly one row of the opcode map, the row of the command it decodes to. -/
def Obligations.EveryWordHasOneOpcodeRow : Prop :=
  ∀ w : CommandWord,
    (opcodeMap.filter fun r => rowMatches r w).map OpcodeRow.mnemonic = [mnemonicOf (decode w)]

/-- 95_test_vectors.md V-DEC-1 to V-DEC-10: the spec's own words decode to the commands they stand for. -/
def Obligations.SpecWordsDecode : Prop :=
  decode 0x70d0c0b0a04030201#67 = .enc ⟨0x01, 0x02, 0x03, 0x04⟩ ⟨0x0a, 0x0b, 0x0c, 0x0d⟩ ∧
  decode 0x1ffffffff04030201#67 = .lds ⟨0x01, 0x02, 0x03, 0x04⟩ ∧
  decode 0x20d0c0b0a00000000#67 = .ldk ⟨0x0a, 0x0b, 0x0c, 0x0d⟩ ∧
  decode 0x30000000000000000#67 = .ark ∧ decode 0x40000000000000000#67 = .sub ∧
  decode 0x50000000000000000#67 = .shift ∧ decode 0x60000000000000000#67 = .mix ∧
  decode 0x00000000000000000#67 = .nop ∧
  decode 0x733221100efbeadde#67 = .enc ⟨0xde, 0xad, 0xbe, 0xef⟩ ⟨0x00, 0x11, 0x22, 0x33⟩

/-- R53, R49, R57. What the assembler makes of each name. A line of LDS, LDK or ENC with byte operands stands for that
command with those bytes, and is the one word `op * 2^64 + kin * 2^32 + din` with `b0..b3` in the lanes of `din`,
`k0..k3` in those of `kin`, byte `i` at bit `8i`, and zero in the field the command ignores. The five names without
operands, the pseudo-instruction `ROUND` (R55) and `DEMO` (R56) are the words written out. And whatever line is accepted,
its words decode to its commands, ignored bits zero. -/
def Obligations.AssembledWordsDecodeToTheLine : Prop :=
  (∀ l : SourceLine, lineWellFormed l = true → ∃ cs ws, commandsOf l = some cs ∧ assembleLine l = some ws ∧
    ws.map decode = cs ∧ ∀ w ∈ ws, canonicalWord w = true) ∧
  (∀ n0 n1 n2 n3 : Nat, n0 < 256 → n1 < 256 → n2 < 256 → n3 < 256 →
    commandsOf ⟨.lds, [n0, n1, n2, n3], []⟩ = some [.lds ⟨.ofNat 8 n0, .ofNat 8 n1, .ofNat 8 n2, .ofNat 8 n3⟩] ∧
    assembleLine ⟨.lds, [n0, n1, n2, n3], []⟩ =
      some [.ofNat 67 (1 * 2 ^ 64 + (n0 + n1 * 2 ^ 8 + n2 * 2 ^ 16 + n3 * 2 ^ 24))] ∧
    commandsOf ⟨.ldk, [n0, n1, n2, n3], []⟩ = some [.ldk ⟨.ofNat 8 n0, .ofNat 8 n1, .ofNat 8 n2, .ofNat 8 n3⟩] ∧
    assembleLine ⟨.ldk, [n0, n1, n2, n3], []⟩ =
      some [.ofNat 67 (2 * 2 ^ 64 + (n0 + n1 * 2 ^ 8 + n2 * 2 ^ 16 + n3 * 2 ^ 24) * 2 ^ 32)]) ∧
  (∀ b0 b1 b2 b3 k0 k1 k2 k3 : Nat, b0 < 256 → b1 < 256 → b2 < 256 → b3 < 256 →
    k0 < 256 → k1 < 256 → k2 < 256 → k3 < 256 →
    commandsOf ⟨.enc, [b0, b1, b2, b3], [k0, k1, k2, k3]⟩ =
      some [.enc ⟨.ofNat 8 b0, .ofNat 8 b1, .ofNat 8 b2, .ofNat 8 b3⟩ ⟨.ofNat 8 k0, .ofNat 8 k1, .ofNat 8 k2, .ofNat 8 k3⟩] ∧
    assembleLine ⟨.enc, [b0, b1, b2, b3], [k0, k1, k2, k3]⟩ =
      some [.ofNat 67 (7 * 2 ^ 64 + (k0 + k1 * 2 ^ 8 + k2 * 2 ^ 16 + k3 * 2 ^ 24) * 2 ^ 32 +
        (b0 + b1 * 2 ^ 8 + b2 * 2 ^ 16 + b3 * 2 ^ 24))]) ∧
  (assembleLine ⟨.nop, [], []⟩ = some [0x00000000000000000#67] ∧
    assembleLine ⟨.ark, [], []⟩ = some [0x30000000000000000#67] ∧
    assembleLine ⟨.sub, [], []⟩ = some [0x40000000000000000#67] ∧
    assembleLine ⟨.shift, [], []⟩ = some [0x50000000000000000#67] ∧
    assembleLine ⟨.mix, [], []⟩ = some [0x60000000000000000#67]) ∧
  commandsOf ⟨.round, [], []⟩ = some [.ark, .sub, .shift, .mix, .ark] ∧
  assembleLine ⟨.demo, [], []⟩ = some [0x70d0c0b0a04030201#67]

/-! ## Steps, runs, reset and the ports -/

/-- R46. A step at a state whose next command word is `w` is `exec` of the command `w` decodes to, at that state; a fault
is the step's own. What a next state has besides is the model's own bookkeeping: the word has left the host's list
`program` (log entry 5, DESIGN CHOICE) and `index` has gone up by one (log entry 6, DESIGN CHOICE; the engine has no such
counter, R110). -/
def Obligations.StepRunsTheDecodedCommand : Prop :=
  ∀ (s : State) (w : CommandWord) (rest : List CommandWord), s.program = w :: rest →
    step s = match exec (decode w) s with
      | .next t => .next { t with program := rest, index := t.index + 1 }
      | .fault f => .fault f
      | .refused r => .refused r

/-- R46, R113 (log entry 7: that the model's step then stays where it is, is the model's choice). With no command offered
nothing happens. -/
def Obligations.StepWithoutACommandChangesNothing : Prop :=
  ∀ s : State, s.program = [] → step s = .next s

/-- R38. Commands take effect one at a time in order: as many steps of the machine as the host has commands give the state
that applying the commands' own steps in that order gives. The host's commands stand in the model's own field `program`
(log entry 5, DESIGN CHOICE). -/
def Obligations.StepsApplyTheCommandsInOrder : Prop :=
  ∀ (ws rest : List CommandWord) (s : State), s.program = ws ++ rest →
    (∀ t, runCommands ws s = .completed t →
      Host.Core.run Sys2Proof.core ws.length s = .next { t with program := rest }) ∧
    ∀ f t, runCommands ws s = .faulted f t → Host.Core.run Sys2Proof.core ws.length s = .fault f

/-- R25. After reset both tags are 0: in the state a run begins in, and after a reset event in any state. -/
def Obligations.ResetClearsBothTags : Prop :=
  State.reset.SW = false ∧ State.reset.KW = false ∧
    ∀ s : State, (resetEvent s).SW = false ∧ (resetEvent s).KW = false

/-- R116. Reset wins: at an edge with `rst = 1` the engine is reset whatever command is offered, and the command is not
accepted. -/
def Obligations.ResetWinsOverACommand : Prop :=
  ∀ (e : EdgeInput) (s : State), e.rst = true →
    edge e s = .next (resetEvent s) ∧ (resetEvent s).SW = false ∧ (resetEvent s).KW = false

/-- R46. At an edge with `rst = 0` an offered command is executed as one step (between steps `cmd_ready` is always 1, log
entry 9, DEDUCED), and with no command offered nothing happens (log entry 7, DEDUCED). That a command completed to a next
state is counted in `index` is the model's own bookkeeping (log entry 6, DESIGN CHOICE). -/
def Obligations.EdgeAcceptsAnOfferedCommand : Prop :=
  (∀ (e : EdgeInput) (s : State), e.rst = false → e.cmdValid = true →
    edge e s = match exec (decode (commandWord e.cmdOp e.cmdKin e.cmdDin)) s with
      | .next t => .next { t with index := t.index + 1 }
      | .fault f => .fault f
      | .refused r => .refused r) ∧
  ∀ (e : EdgeInput) (s : State), e.rst = false → e.cmdValid = false → edge e s = .next s

/-- R94, R33. While `SW = 1`, byte `i` of `dout` is bits `[8i+7:8i]` and is the cell that `bytes(S)[i]` names, all 8 bits
of it; the observation is (`SW`, `S`). -/
def Obligations.DoutShowsTheDataState : Prop :=
  ∀ s : State, s.SW = true →
    (dout s).extractLsb' 0 8 = s.S.c00 ∧ (dout s).extractLsb' 8 8 = s.S.c01 ∧
    (dout s).extractLsb' 16 8 = s.S.c10 ∧ (dout s).extractLsb' 24 8 = s.S.c11 ∧ observe s = (true, s.S)

/-- R95. `dout_valid` equals `SW`: 0 after reset, 1 after LDS and after ENC, and otherwise as it was after any
command. -/
def Obligations.DoutValidFromFirstLoadToReset : Prop :=
  (∀ s : State, doutValid s = s.SW) ∧ doutValid State.reset = false ∧
  (∀ (e : EdgeInput) (s : State), e.rst = true → ∃ t, edge e s = .next t ∧ doutValid t = false) ∧
  ∀ (i : Instr) (s t : State), exec i s = .next t →
    (doutValid t = true ↔ doutValid s = true ∨ (∃ b, i = .lds b) ∨ ∃ b k, i = .enc b k)

/-! ## Invariants of every step -/

/-- R17, R23, R24 (log entry 3: the reset content is a free value; the statement holds for every value of it). The tags
tell the truth: every step keeps a register whose tag is 0 at what reset left in it. -/
def Obligations.StepKeepsUnwrittenRegisters : Prop :=
  ∀ s t : State, UnwrittenHoldsReset s → step s = .next t → UnwrittenHoldsReset t

/-- R115 (log entry 3). Every clock edge keeps it too, a reset in the middle among them. -/
def Obligations.EdgeKeepsUnwrittenRegisters : Prop :=
  ∀ (e : EdgeInput) (s t : State), UnwrittenHoldsReset s → edge e s = .next t → UnwrittenHoldsReset t

/-- R23, R24, R25 (log entry 3). It holds after reset. -/
def Obligations.ResetMeetsUnwrittenRegisters : Prop :=
  UnwrittenHoldsReset State.reset

/-- R13 (b), R89 (the spec's derivations). When the host keeps to operand bytes in [0,15], every step keeps the loaded
registers' cells in [0,15]. -/
def Obligations.StepKeepsLowNibbleRun : Prop :=
  ∀ s t : State, LowNibbleRun s → step s = .next t → LowNibbleRun t

/-- R25 (and log entry 5: the host has issued nothing). It holds after reset. -/
def Obligations.ResetMeetsLowNibbleRun : Prop :=
  LowNibbleRun State.reset

/-! ## Isolation -/

/-- R96, R14. `K` and `KW` do not show: from two states that differ in them only, a run without ARK ends alike, and where
`SW = 1` at its end no output tells the two keys apart. (An ENC in the run loads its own key first. Nothing is said of
`dout` while `SW = 0`, where its value is free, R94.) -/
def Obligations.KeyStaysInvisibleWithoutArk : Prop :=
  ∀ (ws : List CommandWord) (s s' : State), sameButKey s s' → (∀ w ∈ ws, decode w ≠ .ark) →
    (∀ t, runCommands ws s = .completed t →
      ∃ t', runCommands ws s' = .completed t' ∧ sameButKey t t' ∧
        (t.SW = true → observe t = observe t' ∧ dout t = dout t')) ∧
    ∀ f t, runCommands ws s = .faulted f t → ∃ t', runCommands ws s' = .faulted f t' ∧ sameButKey t t'

/-- R43, R111 (log entry 15: a system is a list of engines). Engines share nothing: after any interleaving each engine is
where its own steps alone bring it, so any order of the same steps gives the same system. It says how a system is put
together (`stepOf`, `interleave`), whatever one engine's step does. -/
def Obligations.EnginesAreIndependent : Prop :=
  (∀ (turns : List Nat) (engines : System) (n : Nat) (e : Engine), engines[n]? = some e →
    (interleave turns engines)[n]? = some (stepsOfEngine (turns.count n) e)) ∧
  ∀ (turns turns' : List Nat) (engines : System), turns.Perm turns' →
    interleave turns engines = interleave turns' engines
end

