-- ==== Sys2Proof/Laws/Cells.lean ====
section
/-!
SUPPORT. Cells, nibbles and grids: the laws of 00_scope.md R6, R7 and R9 that claims about the transforms lean on.
-/

namespace Sys2Proof.Machine

@[simp] theorem bytes_grid (b : ByteVec) : bytes (grid b) = b := rfl
@[simp] theorem grid_bytes (g : Grid) : grid (bytes g) = g := rfl

/-- `G[r][c] = b[2*r + c]` (R9). -/
theorem cell_grid (b : ByteVec) (r c : Fin 2) :
    cell (grid b) r c = byteAt b ⟨2 * r.val + c.val, by omega⟩ := by
  fin_cases r <;> fin_cases c <;> rfl

/-- The low nibble is the value masked with `0x0F` (R6). -/
theorem zext8_lowNibble (v : Byte) : zext8 (lowNibble v) = v &&& 0x0F#8 := by
  revert v; decide

@[simp] theorem lowNibble_zext8 (n : Nibble) : lowNibble (zext8 n) = n := by
  revert n; decide

/-- The XOR of two zero-extended nibbles is the nibbles' XOR, zero-extended. -/
theorem zext8_xor (m n : Nibble) : zext8 m ^^^ zext8 n = zext8 (m ^^^ n) := by
  revert m n; decide

/-- A zero-extended nibble is in [0,15] (10_state.md R13). -/
@[simp] theorem lowCell_zext8 (n : Nibble) : lowCell (zext8 n) = true := by
  revert n; decide

/-- A cell is in [0,15] exactly when it is its own low nibble. -/
theorem lowCell_iff (v : Byte) : lowCell v = true ↔ zext8 (lowNibble v) = v := by
  revert v; decide

/-- An XOR of two values with zero high nibbles has a zero high nibble (10_state.md R13). -/
theorem lowCell_xor {u v : Byte} (hu : lowCell u = true) (hv : lowCell v = true) : lowCell (u ^^^ v) = true := by
  rw [← (lowCell_iff u).1 hu, ← (lowCell_iff v).1 hv, zext8_xor]
  exact lowCell_zext8 _

@[simp] theorem highNibble_zext8_xor (n : Nibble) (v : Byte) : highNibble (zext8 n ^^^ v) = highNibble v := by
  apply BitVec.eq_of_getLsbD_eq
  intro i hi
  simp only [highNibble, zext8, BitVec.getLsbD_extractLsb', BitVec.getLsbD_xor, BitVec.getLsbD_setWidth]
  simp [BitVec.getLsbD_of_ge]

@[simp] theorem xorCells_self_right (g h : Grid) : xorCells (xorCells g h) h = g := by
  simp [xorCells]

end Sys2Proof.Machine
end

