-- ==== Sys2Proof/Laws/Encoding.lean ====
section
/-!
SUPPORT. The fields of a command word put together and the byte lanes of a port, read back.
-/

namespace Sys2Proof

@[simp] theorem opField_commandWord (op : BitVec 3) (kin din : PortWord) : opField (commandWord op kin din) = op := by
  apply BitVec.eq_of_getLsbD_eq
  intro i hi
  simp only [opField, commandWord, BitVec.getLsbD_extractLsb', BitVec.getLsbD_append]
  simp [hi, show ¬ 64 + i < 32 by omega, show ¬ 64 + i - 32 < 32 by omega, show 64 + i - 32 - 32 = i by omega]

@[simp] theorem kinField_commandWord (op : BitVec 3) (kin din : PortWord) :
    kinField (commandWord op kin din) = kin := by
  apply BitVec.eq_of_getLsbD_eq
  intro i hi
  simp only [kinField, commandWord, BitVec.getLsbD_extractLsb', BitVec.getLsbD_append]
  simp [hi]

@[simp] theorem dinField_commandWord (op : BitVec 3) (kin din : PortWord) :
    dinField (commandWord op kin din) = din := by
  apply BitVec.eq_of_getLsbD_eq
  intro i hi
  simp only [dinField, commandWord, BitVec.getLsbD_extractLsb', BitVec.getLsbD_append]
  simp [hi]

/-! ## Values as numbers -/

/-- A concatenation as a number: the high part counts in units of the low part's range. -/
theorem append_toNat {m n : Nat} (u : BitVec m) (v : BitVec n) : (u ++ v).toNat = u.toNat * 2 ^ n + v.toNat := by
  rw [BitVec.toNat_append, ← Nat.shiftLeft_add_eq_or_of_lt v.isLt, Nat.shiftLeft_eq]

/-- The one number of 30_encoding.md R57: `op * 2^64 + kin * 2^32 + din`. -/
theorem commandWord_toNat (op : BitVec 3) (kin din : PortWord) :
    (commandWord op kin din).toNat = op.toNat * 2 ^ 64 + kin.toNat * 2 ^ 32 + din.toNat := by
  rw [commandWord, append_toNat, append_toNat]
  omega

/-- Byte `i` of a port counts in units of `2^(8i)` (20_memory.md R33). -/
theorem packBytes_toNat (b : ByteVec) :
    (packBytes b).toNat = b.b0.toNat + b.b1.toNat * 2 ^ 8 + b.b2.toNat * 2 ^ 16 + b.b3.toNat * 2 ^ 24 := by
  rw [packBytes, append_toNat, append_toNat, append_toNat]
  omega

/-! ## Fields and lanes read back -/

/-- A command word is its three fields (30_encoding.md R45). -/
theorem commandWord_fields (w : CommandWord) : commandWord (opField w) (kinField w) (dinField w) = w := by
  apply BitVec.eq_of_getLsbD_eq
  intro i hi
  simp only [commandWord, opField, kinField, dinField, BitVec.getLsbD_append, BitVec.getLsbD_extractLsb']
  split_ifs with h1 h2
  · simp [h1]
  · have : i - 32 < 32 := by omega
    simp [this, show 32 + (i - 32) = i by omega]
  · have : i - 32 - 32 < 3 := by omega
    simp [this, show 64 + (i - 32 - 32) = i by omega]

@[simp] theorem bytesOf_packBytes (b : ByteVec) : bytesOf (packBytes b) = b := by
  obtain ⟨b0, b1, b2, b3⟩ := b
  simp only [bytesOf, packBytes, ByteVec.mk.injEq]
  refine ⟨?_, ?_, ?_, ?_⟩ <;>
    · apply BitVec.eq_of_getLsbD_eq
      intro i hi
      simp only [BitVec.getLsbD_extractLsb', BitVec.getLsbD_append]
      split_ifs <;>
        first
        | omega
        | simp [hi, show 16 + i - 8 - 8 = i by omega, show 24 + i - 8 - 8 - 8 = i by omega]

@[simp] theorem packBytes_bytesOf (v : PortWord) : packBytes (bytesOf v) = v := by
  apply BitVec.eq_of_getLsbD_eq
  intro i hi
  simp only [packBytes, bytesOf, BitVec.getLsbD_append, BitVec.getLsbD_extractLsb']
  split_ifs with h1 h2 h3
  · simp [h1]
  · simp [h2, show 8 + (i - 8) = i by omega]
  · simp [h3, show 16 + (i - 8 - 8) = i by omega]
  · simp [show i - 8 - 8 - 8 < 8 by omega, show 24 + (i - 8 - 8 - 8) = i by omega]

end Sys2Proof
end

