-- ==== Sys2Proof/Laws/State.lean ====
section
/-!
SUPPORT. What each update of the state does to each field, so that no later proof unfolds a record update.
-/

namespace Sys2Proof.Machine

@[simp] theorem loadS_S (b : ByteVec) (s : State) : (loadS b s).S = grid b := rfl
@[simp] theorem loadS_K (b : ByteVec) (s : State) : (loadS b s).K = s.K := rfl
@[simp] theorem loadS_SW (b : ByteVec) (s : State) : (loadS b s).SW = true := rfl
@[simp] theorem loadS_KW (b : ByteVec) (s : State) : (loadS b s).KW = s.KW := rfl
@[simp] theorem loadS_program (b : ByteVec) (s : State) : (loadS b s).program = s.program := rfl
@[simp] theorem loadS_index (b : ByteVec) (s : State) : (loadS b s).index = s.index := rfl
@[simp] theorem loadS_epoch (b : ByteVec) (s : State) : (loadS b s).epoch = s.epoch := rfl

@[simp] theorem loadK_S (k : ByteVec) (s : State) : (loadK k s).S = s.S := rfl
@[simp] theorem loadK_K (k : ByteVec) (s : State) : (loadK k s).K = grid k := rfl
@[simp] theorem loadK_SW (k : ByteVec) (s : State) : (loadK k s).SW = s.SW := rfl
@[simp] theorem loadK_KW (k : ByteVec) (s : State) : (loadK k s).KW = true := rfl
@[simp] theorem loadK_program (k : ByteVec) (s : State) : (loadK k s).program = s.program := rfl
@[simp] theorem loadK_index (k : ByteVec) (s : State) : (loadK k s).index = s.index := rfl
@[simp] theorem loadK_epoch (k : ByteVec) (s : State) : (loadK k s).epoch = s.epoch := rfl

@[simp] theorem writeS_S (g : Grid) (s : State) : (writeS g s).S = g := rfl
@[simp] theorem writeS_K (g : Grid) (s : State) : (writeS g s).K = s.K := rfl
@[simp] theorem writeS_SW (g : Grid) (s : State) : (writeS g s).SW = s.SW := rfl
@[simp] theorem writeS_KW (g : Grid) (s : State) : (writeS g s).KW = s.KW := rfl
@[simp] theorem writeS_program (g : Grid) (s : State) : (writeS g s).program = s.program := rfl
@[simp] theorem writeS_index (g : Grid) (s : State) : (writeS g s).index = s.index := rfl
@[simp] theorem writeS_epoch (g : Grid) (s : State) : (writeS g s).epoch = s.epoch := rfl

@[simp] theorem resetEvent_S (s : State) : (resetEvent s).S = Config.resetS (s.epoch + 1) := rfl
@[simp] theorem resetEvent_K (s : State) : (resetEvent s).K = Config.resetK (s.epoch + 1) := rfl
@[simp] theorem resetEvent_SW (s : State) : (resetEvent s).SW = false := rfl
@[simp] theorem resetEvent_KW (s : State) : (resetEvent s).KW = false := rfl
@[simp] theorem resetEvent_program (s : State) : (resetEvent s).program = s.program := rfl
@[simp] theorem resetEvent_index (s : State) : (resetEvent s).index = 0 := rfl
@[simp] theorem resetEvent_epoch (s : State) : (resetEvent s).epoch = s.epoch + 1 := rfl

@[simp] theorem countCommand_S (s : State) : (countCommand s).S = s.S := rfl
@[simp] theorem countCommand_K (s : State) : (countCommand s).K = s.K := rfl
@[simp] theorem countCommand_SW (s : State) : (countCommand s).SW = s.SW := rfl
@[simp] theorem countCommand_KW (s : State) : (countCommand s).KW = s.KW := rfl
@[simp] theorem countCommand_program (s : State) : (countCommand s).program = s.program := rfl
@[simp] theorem countCommand_index (s : State) : (countCommand s).index = s.index + 1 := rfl
@[simp] theorem countCommand_epoch (s : State) : (countCommand s).epoch = s.epoch := rfl

@[simp] theorem setProgram_S (p : List CommandWord) (s : State) : (setProgram p s).S = s.S := rfl
@[simp] theorem setProgram_K (p : List CommandWord) (s : State) : (setProgram p s).K = s.K := rfl
@[simp] theorem setProgram_SW (p : List CommandWord) (s : State) : (setProgram p s).SW = s.SW := rfl
@[simp] theorem setProgram_KW (p : List CommandWord) (s : State) : (setProgram p s).KW = s.KW := rfl
@[simp] theorem setProgram_program (p : List CommandWord) (s : State) : (setProgram p s).program = p := rfl
@[simp] theorem setProgram_index (p : List CommandWord) (s : State) : (setProgram p s).index = s.index := rfl
@[simp] theorem setProgram_epoch (p : List CommandWord) (s : State) : (setProgram p s).epoch = s.epoch := rfl

@[simp] theorem offer_S (w : CommandWord) (s : State) : (offer w s).S = s.S := rfl
@[simp] theorem offer_K (w : CommandWord) (s : State) : (offer w s).K = s.K := rfl
@[simp] theorem offer_SW (w : CommandWord) (s : State) : (offer w s).SW = s.SW := rfl
@[simp] theorem offer_KW (w : CommandWord) (s : State) : (offer w s).KW = s.KW := rfl
@[simp] theorem offer_program (w : CommandWord) (s : State) : (offer w s).program = w :: s.program.drop 1 := rfl
@[simp] theorem offer_index (w : CommandWord) (s : State) : (offer w s).index = s.index := rfl
@[simp] theorem offer_epoch (w : CommandWord) (s : State) : (offer w s).epoch = s.epoch := rfl

@[simp] theorem arkEffect_S (s : State) : (arkEffect s).S = xorCells s.S s.K := rfl
@[simp] theorem arkEffect_K (s : State) : (arkEffect s).K = s.K := rfl
@[simp] theorem arkEffect_SW (s : State) : (arkEffect s).SW = s.SW := rfl
@[simp] theorem arkEffect_KW (s : State) : (arkEffect s).KW = s.KW := rfl
@[simp] theorem arkEffect_program (s : State) : (arkEffect s).program = s.program := rfl
@[simp] theorem arkEffect_index (s : State) : (arkEffect s).index = s.index := rfl
@[simp] theorem arkEffect_epoch (s : State) : (arkEffect s).epoch = s.epoch := rfl

@[simp] theorem subEffectUnder_S (table : Nibble → Nibble) (s : State) : (subEffectUnder table s).S = mapCells (substituteCell table) s.S := rfl
@[simp] theorem subEffectUnder_K (table : Nibble → Nibble) (s : State) : (subEffectUnder table s).K = s.K := rfl
@[simp] theorem subEffectUnder_SW (table : Nibble → Nibble) (s : State) : (subEffectUnder table s).SW = s.SW := rfl
@[simp] theorem subEffectUnder_KW (table : Nibble → Nibble) (s : State) : (subEffectUnder table s).KW = s.KW := rfl
@[simp] theorem subEffectUnder_program (table : Nibble → Nibble) (s : State) : (subEffectUnder table s).program = s.program := rfl
@[simp] theorem subEffectUnder_index (table : Nibble → Nibble) (s : State) : (subEffectUnder table s).index = s.index := rfl
@[simp] theorem subEffectUnder_epoch (table : Nibble → Nibble) (s : State) : (subEffectUnder table s).epoch = s.epoch := rfl

@[simp] theorem shiftEffect_S (s : State) : (shiftEffect s).S = swapRowOne s.S := rfl
@[simp] theorem shiftEffect_K (s : State) : (shiftEffect s).K = s.K := rfl
@[simp] theorem shiftEffect_SW (s : State) : (shiftEffect s).SW = s.SW := rfl
@[simp] theorem shiftEffect_KW (s : State) : (shiftEffect s).KW = s.KW := rfl
@[simp] theorem shiftEffect_program (s : State) : (shiftEffect s).program = s.program := rfl
@[simp] theorem shiftEffect_index (s : State) : (shiftEffect s).index = s.index := rfl
@[simp] theorem shiftEffect_epoch (s : State) : (shiftEffect s).epoch = s.epoch := rfl

@[simp] theorem mixEffect_S (s : State) : (mixEffect s).S = mixColumns s.S := rfl
@[simp] theorem mixEffect_K (s : State) : (mixEffect s).K = s.K := rfl
@[simp] theorem mixEffect_SW (s : State) : (mixEffect s).SW = s.SW := rfl
@[simp] theorem mixEffect_KW (s : State) : (mixEffect s).KW = s.KW := rfl
@[simp] theorem mixEffect_program (s : State) : (mixEffect s).program = s.program := rfl
@[simp] theorem mixEffect_index (s : State) : (mixEffect s).index = s.index := rfl
@[simp] theorem mixEffect_epoch (s : State) : (mixEffect s).epoch = s.epoch := rfl

@[simp] theorem encEffectUnder_K (table : Nibble → Nibble) (b k : ByteVec) (s : State) :
    (encEffectUnder table b k s).K = grid k := rfl
@[simp] theorem encEffectUnder_SW (table : Nibble → Nibble) (b k : ByteVec) (s : State) :
    (encEffectUnder table b k s).SW = true := rfl
@[simp] theorem encEffectUnder_KW (table : Nibble → Nibble) (b k : ByteVec) (s : State) :
    (encEffectUnder table b k s).KW = true := rfl
@[simp] theorem encEffectUnder_program (table : Nibble → Nibble) (b k : ByteVec) (s : State) :
    (encEffectUnder table b k s).program = s.program := rfl
@[simp] theorem encEffectUnder_index (table : Nibble → Nibble) (b k : ByteVec) (s : State) :
    (encEffectUnder table b k s).index = s.index := rfl
@[simp] theorem encEffectUnder_epoch (table : Nibble → Nibble) (b k : ByteVec) (s : State) :
    (encEffectUnder table b k s).epoch = s.epoch := rfl

@[simp] theorem reset_SW : State.reset.SW = false := rfl
@[simp] theorem reset_KW : State.reset.KW = false := rfl
@[simp] theorem reset_program : State.reset.program = [] := rfl

/-- Writing the cells that are already there changes nothing. -/
theorem writeS_self (s : State) : writeS s.S s = s := rfl

/-- The later write of `S` is the one that stays. -/
theorem writeS_writeS (g h : Grid) (s : State) : writeS h (writeS g s) = writeS h s := rfl

/-- The two loads write disjoint state (45_round.md R87). -/
theorem loadK_loadS_comm (b k : ByteVec) (s : State) : loadK k (loadS b s) = loadS b (loadK k s) := rfl

end Sys2Proof.Machine
end

