-- ==== Sys2Proof/Laws/Ops.lean ====
section
/-!
SUPPORT. What each shared operation can do, said once: the checks before a read, the answer of each meaning, accepting a
command, one step, and a run of commands.
-/

namespace Sys2Proof.Machine

/-! ## Answers -/

@[simp] theorem onNext_next (f : State → State) (s : State) : onNext f (.next s) = .next (f s) := rfl
@[simp] theorem onNext_fault (f : State → State) (r : Fault) : onNext f (.fault r) = .fault r := rfl
@[simp] theorem onNext_refused (f : State → State) (r : Refusal) : onNext f (.refused r) = .refused r := rfl

/-- What follows an answer answers a next state exactly where the answer does. -/
theorem onNext_eq_next {f : State → State} {a : Answer} {t : State} :
    onNext f a = .next t ↔ ∃ u, a = .next u ∧ f u = t := by
  cases a <;> simp

/-- What follows an answer keeps its fault. -/
theorem onNext_eq_fault {f : State → State} {a : Answer} {r : Fault} : onNext f a = .fault r ↔ a = .fault r := by
  cases a <;> simp

/-! ## The checks before a read -/

theorem readingS_of_written {s : State} {act : Answer} (h : s.SW = true) : readingS s act = act := by
  simp [readingS, h]

theorem readingS_of_unwritten {s : State} {act : Answer} (h : s.SW = false) :
    readingS s act = .fault (.unwrittenRead .S s.index) := by
  simp [readingS, raiseUnwrittenRead, h]

theorem readingK_of_written {s : State} {act : Answer} (h : s.KW = true) : readingK s act = act := by
  simp [readingK, h]

theorem readingK_of_unwritten {s : State} {act : Answer} (h : s.KW = false) :
    readingK s act = .fault (.unwrittenRead .K s.index) := by
  simp [readingK, raiseUnwrittenRead, h]

/-- A checked read of `S` answers a next state only where `S` is written, and then the one of the action. -/
theorem readingS_eq_next {s t : State} {act : Answer} :
    readingS s act = .next t ↔ s.SW = true ∧ act = .next t := by
  cases h : s.SW <;> simp [readingS, raiseUnwrittenRead, h]

/-- A checked read of `K` answers a next state only where `K` is written, and then the one of the action. -/
theorem readingK_eq_next {s t : State} {act : Answer} :
    readingK s act = .next t ↔ s.KW = true ∧ act = .next t := by
  cases h : s.KW <;> simp [readingK, raiseUnwrittenRead, h]

/-! ## The meanings -/

theorem execSub_eq_next {s t : State} :
    execSub s = .next t ↔ s.SW = true ∧ subEffectUnder Config.SBOX s = t := by
  simp [execSub, execSubUnder, readingS_eq_next]

theorem execShift_eq_next {s t : State} : execShift s = .next t ↔ s.SW = true ∧ shiftEffect s = t := by
  simp [execShift, readingS_eq_next]

theorem execMix_eq_next {s t : State} : execMix s = .next t ↔ s.SW = true ∧ mixEffect s = t := by
  simp [execMix, readingS_eq_next]

theorem execArk_eq_next {s t : State} :
    execArk s = .next t ↔ s.SW = true ∧ s.KW = true ∧ arkEffect s = t := by
  simp [execArk, readingS_eq_next, readingK_eq_next]

/-! ## Accepting, stepping, running -/

/-- A command accepted to a next state was executed to one, and counted. -/
theorem accept_eq_next {w : CommandWord} {s t : State} :
    accept w s = .next t ↔ ∃ u, exec (decode w) s = .next u ∧ countCommand u = t := onNext_eq_next

theorem step_of_cons {s : State} {w : CommandWord} {rest : List CommandWord} (h : s.program = w :: rest) :
    step s = onNext (setProgram rest) (accept w s) := by
  simp [step, issueNext, h]

@[simp] theorem runCommands_nil (s : State) : runCommands [] s = .completed s := rfl

theorem runCommands_of_next {w : CommandWord} {ws : List CommandWord} {s t : State} (h : accept w s = .next t) :
    runCommands (w :: ws) s = runCommands ws t := by
  simp [runCommands, h]

theorem runCommands_of_fault {w : CommandWord} {ws : List CommandWord} {s : State} {r : Fault}
    (h : accept w s = .fault r) : runCommands (w :: ws) s = .faulted r s := by
  simp [runCommands, h]

/-- A run over two lists is a run over the second from where the first completes. -/
theorem runCommands_append_of_completed {ws ws' : List CommandWord} {s t : State}
    (h : runCommands ws s = .completed t) : runCommands (ws ++ ws') s = runCommands ws' t := by
  induction ws generalizing s with
  | nil => cases h; rfl
  | cons w ws ih =>
    cases ha : accept w s <;> simp [runCommands, ha] at h ⊢
    exact ih h

end Sys2Proof.Machine
end

