-- ==== Sys2Proof/Laws/Exec.lean ====
section
/-!
SUPPORT. What `exec` can answer, said once: the tag check of 60_exceptions.md R102 and R105, and behind it `carryOn`. Every
claim over all commands is a case split over these lemmas, not over `exec` unfolded.
-/

namespace Sys2Proof.Machine

/-! ## What `carryOn` does to each field -/

@[simp] theorem carryOn_program (i : Instr) (s : State) : (carryOn i s).program = s.program := by cases i <;> rfl
@[simp] theorem carryOn_index (i : Instr) (s : State) : (carryOn i s).index = s.index := by cases i <;> rfl
@[simp] theorem carryOn_epoch (i : Instr) (s : State) : (carryOn i s).epoch = s.epoch := by cases i <;> rfl
@[simp] theorem carryOn_SW (i : Instr) (s : State) : (carryOn i s).SW = (loadsS i || s.SW) := by
  cases i <;> simp [carryOn, loadsS]
@[simp] theorem carryOn_KW (i : Instr) (s : State) : (carryOn i s).KW = (loadsK i || s.KW) := by
  cases i <;> simp [carryOn, loadsK]

/-- A command that does not load `K` leaves it (10_state.md R12). -/
theorem carryOn_K_of_not_loadsK {i : Instr} (h : loadsK i = false) (s : State) : (carryOn i s).K = s.K := by
  cases i <;> simp_all [carryOn, loadsK]

/-! ## What `exec` answers -/

/-- The answer of every command in every state. -/
theorem exec_eq (i : Instr) (s : State) :
    exec i s = if s.SW = false ∧ readsS i = true then .fault (.unwrittenRead .S s.index)
      else if s.KW = false ∧ readsK i = true then .fault (.unwrittenRead .K s.index)
      else .next (carryOn i s) := by
  cases i <;> cases h : s.SW <;> cases h' : s.KW <;>
    simp [exec, readsS, readsK, carryOn, execArk, execSub, execSubUnder, execShift, execMix, execNop, execLds, execLdk,
      execEnc, execEncUnder, readingS, readingK, raiseUnwrittenRead, h, h']

/-- A command that answers a next state had its registers loaded, and answers what `carryOn` computes. -/
theorem exec_next {i : Instr} {s t : State} (h : exec i s = .next t) :
    loadedFor i s.SW s.KW = true ∧ carryOn i s = t := by
  rw [exec_eq] at h
  split_ifs at h with h1 h2
  cases hS : s.SW <;> cases hK : s.KW <;> simp_all [loadedFor]

/-- The same for one accepted command word. -/
theorem accept_next {w : CommandWord} {s t : State} (h : accept w s = .next t) :
    loadedFor (decode w) s.SW s.KW = true ∧ countCommand (carryOn (decode w) s) = t := by
  obtain ⟨u, hu, rfl⟩ := accept_eq_next.1 h
  obtain ⟨hl, rfl⟩ := exec_next hu
  exact ⟨hl, rfl⟩

/-- One step to a next state: nothing was offered, or the next command was accepted. -/
theorem step_next {s t : State} (h : step s = .next t) :
    s.program = [] ∧ t = s ∨
    ∃ w rest, s.program = w :: rest ∧ loadedFor (decode w) s.SW s.KW = true ∧
      t = setProgram rest (countCommand (carryOn (decode w) s)) := by
  cases hp : s.program with
  | nil =>
    simp only [step, issueNext, hp, idle] at h
    cases h
    exact .inl ⟨rfl, rfl⟩
  | cons w rest =>
    rw [step_of_cons hp] at h
    obtain ⟨u, hu, rfl⟩ := onNext_eq_next.1 h
    obtain ⟨hl, rfl⟩ := accept_next hu
    exact .inr ⟨w, rest, rfl, hl, rfl⟩

end Sys2Proof.Machine
end

