-- ==== Sys2Proof/Laws/PerInstr.lean ====
section
/-!
SUPPORT. Statements about every command as syntax, one lemma per constructor. Family `EncodedWord`: what the encoder
writes (30_encoding.md R47, R48, R53).
-/

namespace Sys2Proof.Laws.EncodedWord

/-- The encoder writes the command's own opcode in `op` and its operands in their fields, zero in the fields it
ignores. -/
def Statement (i : Instr) : Prop :=
  opField (encode i) = opcodeOf i ∧ kinField (encode i) = kinOf i ∧ dinField (encode i) = dinOf i

theorem nop : Statement .nop := by simp [Statement, encode]
theorem lds (b : ByteVec) : Statement (.lds b) := by simp [Statement, encode]
theorem ldk (k : ByteVec) : Statement (.ldk k) := by simp [Statement, encode]
theorem ark : Statement .ark := by simp [Statement, encode]
theorem sub : Statement .sub := by simp [Statement, encode]
theorem shift : Statement .shift := by simp [Statement, encode]
theorem mix : Statement .mix := by simp [Statement, encode]
theorem enc (b k : ByteVec) : Statement (.enc b k) := by simp [Statement, encode]

end Sys2Proof.Laws.EncodedWord
end

