-- ==== Sys2Proof/Machine/HostText.lean ====
section
/-!
DEFINITION. Text the host shows: a command word in its written form (30_encoding.md R57) and the demonstration program's
rendering of a grid, informative and outside the hardware (46_nop_readout_render.md R97). A text is a list of
characters. Nothing in the engine depends on this file.
-/

namespace Sys2Proof.Machine

/-- One lowercase hexadecimal digit, a character of `0123456789abcdef` (R57, R97). -/
def hexDigit (n : Nibble) : Char :=
  ['0', '1', '2', '3', '4', '5', '6', '7', '8', '9', 'a', 'b', 'c', 'd', 'e', 'f'].getD n.toNat '0'

/-- The eight hexadecimal digits of a 32-bit value, most significant first (R57). -/
def hexDigits (v : PortWord) : List Char :=
  [28, 24, 20, 16, 12, 8, 4, 0].map fun i => hexDigit (v.extractLsb' i 4)

/-- The written form `op:kin:din` (R57). -/
def listing (w : CommandWord) : List Char :=
  hexDigit ((opField w).setWidth 4) :: ':' :: (hexDigits (kinField w) ++ ':' :: hexDigits (dinField w))

/-- The one number of R57, 17 hexadecimal digits of which the first is the opcode. -/
def listingNumber (w : CommandWord) : List Char :=
  hexDigit ((opField w).setWidth 4) :: (hexDigits (kinField w) ++ hexDigits (dinField w))

/-- One row of the rendering: `[<hex>, <hex>]` (R97). -/
def renderRow (left right : Byte) : List Char :=
  ['[', hexDigit (lowNibble left), ',', ' ', hexDigit (lowNibble right), ']']

/-- The rendering of a grid whose cells are all in [0,15], for a host that ends the text with a newline or does not (U7);
none for any other grid, where the spec settles no text (U6, C6; log entry 14). -/
def renderUnder (endsWithNewline : Bool) (g : Grid) : Option (List Char) :=
  if lowCells g then
    some (renderRow g.c00 g.c01 ++ '\n' :: (renderRow g.c10 g.c11 ++ bif endsWithNewline then ['\n'] else []))
  else none

/-- The rendering of the demonstration program (R97). -/
def render (g : Grid) : Option (List Char) := renderUnder Config.renderEndsWithNewline g

end Sys2Proof.Machine
end

