-- ==== Sys2Proof/Tests/Slice0.lean ====
section
/-!
SUPPORT. Tests. Every expected value is the spec's: a vector V-… or example E… of 95_test_vectors.md, a row of
opcode_table.json, or a rule named beside it. The `witness_` theorems meet the hypotheses of the statements of
Certificates/Slice0/Obligations.lean.
-/

namespace Sys2Proof.Tests

open Sys2Proof Sys2Proof.Machine

/-! ## Small states and what to look at -/

/-- A state with given registers and tags. -/
def st (S K : Grid) (SW KW : Bool) : State :=
  { S := S, K := K, SW := SW, KW := KW, program := [], index := 0, epoch := 0 }

/-- `S` of the next state. -/
def nextS : Answer → Option Grid
  | .next t => some t.S
  | .fault _ => none
  | .refused _ => none

/-- `K` of the next state. -/
def nextK : Answer → Option Grid
  | .next t => some t.K
  | .fault _ => none
  | .refused _ => none

/-- `SW` and `KW` of the next state. -/
def nextTags : Answer → Option (Bool × Bool)
  | .next t => some (t.SW, t.KW)
  | .fault _ => none
  | .refused _ => none

/-- The fault of an answer. -/
def faultOf : Answer → Option Fault
  | .next _ => none
  | .fault r => some r
  | .refused _ => none

/-- The identity table `T_ID`, an instance of the parameter (95_test_vectors.md section 0). -/
def tID (n : Nibble) : Nibble := n

/-- The example table `T_A` (95_test_vectors.md section 0). -/
def tA (n : Nibble) : Nibble :=
  [0x9#4, 0x4, 0xa, 0xb, 0xd, 0x1, 0x8, 0x5, 0x6, 0x2, 0x0, 0x3, 0xc, 0xe, 0xf, 0x7].getD n.toNat 0

/-- The example table `T_B` (95_test_vectors.md section 0). -/
def tB (n : Nibble) : Nibble :=
  [0xa#4, 0x5, 0x9, 0xb, 0x1, 0x7, 0x8, 0xf, 0x6, 0x0, 0x2, 0x3, 0xc, 0x4, 0xd, 0xe].getD n.toNat 0

/-- `T_B` is the inverse of `T_A`. -/
theorem test_tables_inverse : ∀ n : Nibble, tB (tA n) = n := by decide

def g1234 : Grid := ⟨0x12, 0x34, 0x56, 0x78⟩
def gKey : Grid := ⟨0x0a, 0x0b, 0x0c, 0x0d⟩

/-! ## Decoding: words written out from R45 and R47 -/

theorem test_decode_enc : decode 0x70d0c0b0a04030201#67 =
    .enc ⟨0x01, 0x02, 0x03, 0x04⟩ ⟨0x0a, 0x0b, 0x0c, 0x0d⟩ := by decide
theorem test_decode_lds : decode 0x10000000004030201#67 = .lds ⟨0x01, 0x02, 0x03, 0x04⟩ := by decide
theorem test_decode_lds_ignores_kin : decode 0x1ffffffff04030201#67 = .lds ⟨0x01, 0x02, 0x03, 0x04⟩ := by decide
theorem test_decode_ldk : decode 0x20d0c0b0a00000000#67 = .ldk ⟨0x0a, 0x0b, 0x0c, 0x0d⟩ := by decide
theorem test_decode_ark : decode 0x30000000000000000#67 = .ark := by decide
theorem test_decode_sub : decode 0x40000000000000000#67 = .sub := by decide
theorem test_decode_shift : decode 0x50000000000000000#67 = .shift := by decide
theorem test_decode_mix : decode 0x60000000000000000#67 = .mix := by decide
theorem test_decode_nop : decode 0x0deadbeefcafef00d#67 = .nop := by decide
/-- V-DEC-3 re-encodes as V-DEC-2. -/
theorem test_encode_lds : encode (decode 0x1ffffffff04030201#67) = 0x10000000004030201#67 := by decide
/-- R57's example numbers. -/
theorem test_encode_enc : encode (.enc ⟨0x01, 0x02, 0x03, 0x04⟩ ⟨0x0a, 0x0b, 0x0c, 0x0d⟩) = 0x70d0c0b0a04030201#67 := by
  decide
/-- The bits of a row as opcode_table.json numbers them, and a number with a bit above bit 66. -/
theorem test_table_word : decodeTableWord 72 0x40000000000000000 = some .sub := by decide
theorem test_table_word_too_wide : decodeNumber 72 0x80000000000000000 = .error .widerThanCommandWord := by rfl

/-! ## Well-formedness -/

/-- V-DEC-3 has ones in a field LDS ignores: no word the assembler writes (R53). -/
theorem test_canonical_refuses : canonicalWord 0x1ffffffff04030201#67 = false := by decide
theorem test_canonical_accepts : canonicalWord 0x10000000004030201#67 = true := by decide
/-- A line with three bytes, one with a byte of 256, one with an operand where none belongs, one without its key. -/
theorem test_line_three_bytes : lineWellFormed ⟨.lds, [1, 2, 3], []⟩ = false := by decide
theorem test_line_wide_byte : lineWellFormed ⟨.ldk, [1, 2, 3, 256], []⟩ = false := by decide
theorem test_line_stray_operand : lineWellFormed ⟨.sub, [1, 2, 3, 4], []⟩ = false := by decide
theorem test_line_no_key : lineWellFormed ⟨.enc, [1, 2, 3, 4], []⟩ = false := by decide

/-! ## The commands -/

/-- V-LD-3: all 8 bits are kept. -/
theorem test_lds : nextS (exec (.lds ⟨0xf1, 0x22, 0x83, 0x44⟩) State.reset) = some ⟨0xf1, 0x22, 0x83, 0x44⟩ := by decide
/-- V-LD-4: `K` unchanged. -/
theorem test_lds_keeps_key : nextK (exec (.lds ⟨0xff, 0x00, 0x80, 0x7f⟩) (st g1234 gKey true true)) = some gKey := by
  decide
/-- V-LD-2. -/
theorem test_ldk : nextTags (exec (.ldk ⟨0x0a, 0x0b, 0x0c, 0x0d⟩) State.reset) = some (false, true) := by decide
/-- V-LD-6: a zero key is a loaded key, `S` unchanged. -/
theorem test_ldk_zero : nextS (exec (.ldk ⟨0, 0, 0, 0⟩) (st g1234 gKey true false)) = some g1234 := by decide
/-- V-ARK-1. -/
theorem test_ark : nextS (exec .ark (st ⟨0x01, 0x02, 0x03, 0x04⟩ gKey true true)) =
    some ⟨0x0b, 0x09, 0x0f, 0x09⟩ := by decide
/-- V-F-4: both tags clear, `S` is reported. -/
theorem test_ark_priority : faultOf (exec .ark State.reset) = some (.unwrittenRead .S 0) := by decide
/-- V-SUB-2 under `T_A`: high nibbles discarded. -/
theorem test_sub_tA : nextS (execSubUnder tA (st ⟨0xfb, 0x10, 0x7f, 0x80⟩ gKey true false)) =
    some ⟨0x03, 0x09, 0x07, 0x09⟩ := by decide
/-- V-SUB-2 under `T_B`. -/
theorem test_sub_tB : nextS (execSubUnder tB (st ⟨0xfb, 0x10, 0x7f, 0x80⟩ gKey true false)) =
    some ⟨0x03, 0x0a, 0x0e, 0x0a⟩ := by decide
/-- V-SHIFT-1, which V-SHIFT-5's sequential copy fails. -/
theorem test_shift : nextS (exec .shift (st g1234 gKey true false)) = some ⟨0x12, 0x34, 0x78, 0x56⟩ := by decide
/-- V-SHIFT-4: cells move whole. -/
theorem test_shift_whole : nextS (exec .shift (st ⟨0xff, 0x00, 0xf0, 0x0f⟩ gKey true false)) =
    some ⟨0xff, 0x00, 0x0f, 0xf0⟩ := by decide
/-- V-MIX-1, which V-MIX-6's missing snapshot fails. -/
theorem test_mix : nextS (exec .mix (st g1234 gKey true false)) = some ⟨0x44, 0x4c, 0x44, 0x4c⟩ := by decide
/-- V-MIX-4. -/
theorem test_mix_equal : nextS (exec .mix (st ⟨0x77, 0x00, 0x77, 0xff⟩ gKey true false)) =
    some ⟨0x00, 0xff, 0x00, 0xff⟩ := by decide
/-- V-ENC-2 under `T_A`: high nibbles everywhere. -/
theorem test_enc_tA : nextS (execEncUnder tA ⟨0xf1, 0x22, 0x83, 0x44⟩ ⟨0x1a, 0x2b, 0x3c, 0x4d⟩ State.reset) =
    some ⟨0x1b, 0x2e, 0x3d, 0x48⟩ := by decide
/-- V-ENC-1 under `T_ID`. -/
theorem test_enc_tID : nextS (execEncUnder tID ⟨0x01, 0x02, 0x03, 0x04⟩ ⟨0x0a, 0x0b, 0x0c, 0x0d⟩ State.reset) =
    some ⟨0x08, 0x0d, 0x0e, 0x0b⟩ := by decide
/-- V-NOP-1. -/
theorem test_nop : exec .nop State.reset = .next State.reset := rfl

/-! ## Steps and ports -/

/-- V-F-1: the first command after reset is SUB. -/
theorem test_step_sub_at_reset : faultOf (step (State.reset.withFetchWord 72 0x40000000000000000)) =
    some (.unwrittenRead .S 0) := by decide
/-- V-LD-1: the first command after reset is LDS. -/
theorem test_step_lds_at_reset : nextS (step (State.reset.withFetchWord 72 0x10000000004030201)) =
    some ⟨0x01, 0x02, 0x03, 0x04⟩ := by decide
/-- V-F-2: the fault is at command 1. -/
theorem test_fault_index :
    faultOf (Host.Core.run core 2 (setProgram [0x10000000004030201#67, 0x30000000000000000#67] State.reset)) =
      some (.unwrittenRead .K 1) := by decide
/-- V-OUT-2: all 8 bits of each cell are shown. -/
theorem test_dout : dout (st ⟨0x18, 0x2d, 0x3e, 0x4b⟩ gKey true false) = 0x4b3e2d18#32 := by decide
/-- R116: reset wins over an offered LDS. -/
theorem test_reset_wins : nextTags (edge ⟨true, true, 1, 0, 0x04030201⟩ (st g1234 gKey true true)) =
    some (false, false) := by decide

/-! ## Assembler and text -/

/-- R53's form of ENC, with R57's word. -/
theorem test_read_enc : readLine "ENC   0x01, 2, 0x03, 0x04 ; 0x0a, 0x0b, 12, 13 -- P1".toList =
    some (some ⟨.enc, [1, 2, 3, 4], [10, 11, 12, 13]⟩) := by decide
/-- R54's alias of SHIFT, and `new`, which names no one command. -/
theorem test_read_alias : readLine "shift_rows".toList = some (some ⟨.shift, [], []⟩) := by decide
theorem test_read_new : readLine "new 1, 2, 3, 4".toList = none := by decide
/-- R57's example. -/
theorem test_listing : listing 0x70d0c0b0a04030201#67 = "7:0d0c0b0a:04030201".toList := by decide
/-- R97's example, without a last newline, and a cell of 16, for which no text is settled (U6). -/
theorem test_render : renderUnder false ⟨0x0b, 0x0e, 0x0d, 0x08⟩ = some "[b, e]\n[d, 8]".toList := by decide
theorem test_render_wide : renderUnder false ⟨0x10, 0x0e, 0x0d, 0x08⟩ = none := by decide

/-! ## Witnesses: the hypotheses of the statements can be met -/

def full : State := st g1234 gKey true true
def noKey : State := st g1234 gKey true false
def noState : State := st g1234 gKey false true
def lowFull : State := st ⟨0x0f, 0x00, 0x01, 0x0e⟩ gKey true true

theorem witness_ArkXorsTheKeyIntoTheState :
    noState.SW = false ∧ (noKey.SW = true ∧ noKey.KW = false) ∧ full.SW = true ∧ full.KW = true := by decide
theorem witness_SubSubstitutesEveryCell : noState.SW = false ∧ noKey.SW = true := by decide
theorem witness_ShiftSwapsRowOne : State.reset.SW = false ∧ full.SW = true := by decide
theorem witness_MixXorsEachColumn : State.reset.SW = false ∧ full.SW = true := by decide
/-- Key bytes 0x0f, 0x00, 0x01, 0x0e, and two blocks that differ in every high nibble. -/
theorem witness_HighNibblesOfTheRoundAreTheKeys :
    ((0x0f : Byte).toNat < 16 ∧ (0x00 : Byte).toNat < 16 ∧ (0x01 : Byte).toNat < 16 ∧ (0x0e : Byte).toNat < 16) ∧
      (0xff : Byte).extractLsb' 0 4 = (0x0f : Byte).extractLsb' 0 4 ∧
      (0x10 : Byte).extractLsb' 0 4 = (0x00 : Byte).extractLsb' 0 4 ∧
      (0x81 : Byte).extractLsb' 0 4 = (0x71 : Byte).extractLsb' 0 4 ∧
      (0xe7 : Byte).extractLsb' 0 4 = (0x07 : Byte).extractLsb' 0 4 := by decide
theorem witness_RepetitionLaws :
    (Instr.nop = .nop ∧ (∃ b, Instr.lds ⟨0, 0, 0, 255⟩ = .lds b) ∧ (∃ k, Instr.ldk ⟨255, 0, 0, 0⟩ = .ldk k) ∧
      ∃ b k, Instr.enc ⟨0, 0, 0, 0⟩ ⟨255, 0, 0, 0⟩ = .enc b k) ∧ full.SW = true ∧ full.KW = true :=
  ⟨⟨rfl, ⟨_, rfl⟩, ⟨_, rfl⟩, _, _, rfl⟩, rfl, rfl⟩
theorem witness_SubIsABijectionOfLowNibbles : lowFull.SW = true ∧ lowCells ⟨0x0f, 0x00, 0x01, 0x0e⟩ = true := by decide
theorem witness_LowNibblesComeAndGo : lowFull.SW = true ∧ lowCells lowFull.S = true := by decide
theorem witness_ZeroBlockRevealsTheKey : noState.KW = true := by decide
theorem witness_CommandsOnlySetTags : exec .nop State.reset = .next State.reset := rfl
theorem witness_OnlyLoadsWriteTheKey :
    exec .shift noKey = .next { noKey with S := ⟨0x12, 0x34, 0x78, 0x56⟩ } ∧ (∀ k, Instr.shift ≠ .ldk k) ∧
      ∀ b k, Instr.shift ≠ .enc b k := ⟨rfl, by simp, by simp⟩
theorem witness_UnreadRegistersDoNotMatter :
    (Instr.nop ≠ .ark ∧ Instr.nop ≠ .sub ∧ Instr.nop ≠ .shift ∧ Instr.nop ≠ .mix) ∧
      exec .nop noKey = .next noKey ∧ (Instr.sub ≠ .ark ∧ exec .sub noState = .fault (.unwrittenRead .S 0)) ∧
      (∃ b, Instr.lds ⟨255, 0, 0, 0⟩ = .lds b) ∧ (∃ k, Instr.ldk ⟨0, 0, 0, 255⟩ = .ldk k) ∧
      ∃ b k, Instr.enc ⟨0, 0, 0, 0⟩ ⟨255, 0, 0, 0⟩ = .enc b k :=
  ⟨by decide, rfl, ⟨by decide, rfl⟩, ⟨_, rfl⟩, ⟨_, rfl⟩, _, _, rfl⟩
theorem witness_CommandsFaultExactlyByTheTable : ∀ f, exec .nop State.reset ≠ .fault f := by
  intro f
  simp [exec, execNop]
theorem witness_FaultEndsTheRun :
    runCommands [] State.reset = .completed State.reset ∧
      accept 0x40000000000000000#67 State.reset = .fault (.unwrittenRead .S 0) := ⟨rfl, rfl⟩
theorem witness_AssembledWordsDecodeToTheLine :
    lineWellFormed ⟨.enc, [0, 255, 1, 2], [255, 0, 1, 2]⟩ = true ∧ (0 < 256 ∧ 255 < 256) := by decide
theorem witness_StepRunsTheDecodedCommand :
    (State.reset.withFetchWord 72 0x40000000000000000).program = [0x40000000000000000#67] := by decide
theorem witness_StepWithoutACommandChangesNothing : State.reset.program = [] := rfl
/-- An LDS and then a NOP run, with a SUB still to come; and a SUB alone, which faults. -/
theorem witness_StepsApplyTheCommandsInOrder :
    ((setProgram [0x10000000004030201#67, 0#67, 0x40000000000000000#67] State.reset).program =
        [0x10000000004030201#67, 0#67] ++ [0x40000000000000000#67] ∧
      ∃ t, runCommands [0x10000000004030201#67, 0#67]
        (setProgram [0x10000000004030201#67, 0#67, 0x40000000000000000#67] State.reset) = .completed t) ∧
      runCommands [0x40000000000000000#67] (setProgram [0x40000000000000000#67] State.reset) =
        .faulted (.unwrittenRead .S 0) (setProgram [0x40000000000000000#67] State.reset) := ⟨⟨rfl, _, rfl⟩, rfl⟩
theorem witness_NopChangesNothing : ∀ w ∈ [0#67, 0x0deadbeefcafef00d#67], decode w = .nop := by
  intro w hw
  fin_cases hw <;> decide
theorem witness_ResetWinsOverACommand : (EdgeInput.mk true true 7 0 0).rst = true := rfl
theorem witness_EdgeAcceptsAnOfferedCommand :
    ((EdgeInput.mk false true 7 0 0).rst = false ∧ (EdgeInput.mk false true 7 0 0).cmdValid = true) ∧
      (EdgeInput.mk false false 7 0 0).cmdValid = false := ⟨⟨rfl, rfl⟩, rfl⟩
theorem witness_DoutShowsTheDataState : full.SW = true := rfl
theorem witness_DoutValidFromFirstLoadToReset :
    (EdgeInput.mk true false 0 0 0).rst = true ∧ exec .nop State.reset = .next State.reset := ⟨rfl, rfl⟩
theorem witness_StepKeepsUnwrittenRegisters :
    UnwrittenHoldsReset (State.reset.withFetchWord 72 0) ∧
      step (State.reset.withFetchWord 72 0) = .next (countCommand State.reset) := ⟨⟨fun _ => rfl, fun _ => rfl⟩, rfl⟩
theorem witness_EdgeKeepsUnwrittenRegisters :
    UnwrittenHoldsReset State.reset ∧ edge ⟨true, true, 4, 0, 0⟩ State.reset = .next (resetEvent State.reset) :=
  ⟨⟨fun _ => rfl, fun _ => rfl⟩, rfl⟩
/-- The operand bytes 0x0f, 0x00, 0x0e, 0x01 of an LDS still to come, and registers already low. -/
theorem witness_StepKeepsLowNibbleRun :
    LowNibbleRun (setProgram [0x1000000000f000e01#67] lowFull) ∧
      nextS (step (setProgram [0x1000000000f000e01#67] lowFull)) = some ⟨0x01, 0x0e, 0x00, 0x0f⟩ := by
  refine ⟨⟨by decide, by decide, fun w hw => ?_⟩, by decide⟩
  fin_cases hw
  decide
theorem witness_KeyStaysInvisibleWithoutArk :
    (sameButKey full { full with K := g1234, KW := false } ∧ (∀ w ∈ [0x50000000000000000#67], decode w ≠ .ark) ∧
      ∃ t, runCommands [0x50000000000000000#67] full = .completed t ∧ t.SW = true) ∧
    sameButKey noState { noState with K := g1234, KW := false } ∧ (∀ w ∈ [0x40000000000000000#67], decode w ≠ .ark) ∧
      runCommands [0x40000000000000000#67] noState = .faulted (.unwrittenRead .S 0) noState :=
  ⟨⟨⟨rfl, rfl, rfl, rfl, rfl⟩, fun w hw => by fin_cases hw; decide, _, rfl, rfl⟩,
    ⟨rfl, rfl, rfl, rfl, rfl⟩, fun w hw => by fin_cases hw; decide, rfl⟩
theorem witness_EnginesAreIndependent :
    ([Engine.running State.reset, .running full] : System)[1]? = some (.running full) ∧ [0, 1].Perm [1, 0] := by
  refine ⟨rfl, ?_⟩
  decide

end Sys2Proof.Tests
end

section
/-!
# Reset clears both written tags

The state a run begins in is `State.reset` and a reset event leads to `resetEvent s`. What each says of the tags is a
law of its own under the laws of the state; the obligation puts the four together (10_state.md R25).
-/

namespace Sys2Proof.Machine

/-- Settles O34: both tags are 0 in the state a run begins in, and a reset event in any state clears both. -/
theorem resetClearsBothTags : Obligations.ResetClearsBothTags :=
  ⟨reset_SW, reset_KW, fun s => ⟨resetEvent_SW s, resetEvent_KW s⟩⟩

end Sys2Proof.Machine
end

section
/-!
# Encoding and decoding, and the bits a command ignores

The encoder and the decoder are inverse up to the ignored bits (30_encoding.md R51): `decode_encode`, and
`encode_decode`, which says that re-encoding a word masks it with the bits its command reads. Both follow from what the
two functions do with each of the three fields. Two words are then one command exactly when they re-encode alike: R48.
-/

namespace Sys2Proof

/-! ## Masking field by field -/

/-- A mask acts on each field of a command word by its own field (30_encoding.md R45). -/
theorem commandWord_and (op : BitVec 3) (kin din : PortWord) (m : CommandWord) :
    commandWord op kin din &&& m =
      commandWord (op &&& opField m) (kin &&& kinField m) (din &&& dinField m) := by
  calc commandWord op kin din &&& m
      = commandWord op kin din &&& commandWord (opField m) (kinField m) (dinField m) := by rw [commandWord_fields]
    _ = commandWord (op &&& opField m) (kin &&& kinField m) (din &&& dinField m) :=
      BitVec.and_append.trans (congrArg (· ++ (din &&& dinField m)) BitVec.and_append)

/-! ## The bits a command reads, as fields (R47) -/

/-- A command without operands reads `op` alone. -/
theorem opMask_eq : opMask = commandWord (BitVec.allOnes 3) 0 0 := by decide

/-- LDS reads `op` and `din`. -/
theorem usedBits_lds (b : ByteVec) : usedBits (.lds b) = commandWord (BitVec.allOnes 3) 0 (BitVec.allOnes 32) :=
  (by decide : 0x700000000ffffffff#67 = commandWord (BitVec.allOnes 3) 0 (BitVec.allOnes 32))

/-- LDK reads `op` and `kin`. -/
theorem usedBits_ldk (k : ByteVec) : usedBits (.ldk k) = commandWord (BitVec.allOnes 3) (BitVec.allOnes 32) 0 :=
  (by decide : 0x7ffffffff00000000#67 = commandWord (BitVec.allOnes 3) (BitVec.allOnes 32) 0)

/-- ENC reads all three fields. -/
theorem usedBits_enc (b k : ByteVec) :
    usedBits (.enc b k) = commandWord (BitVec.allOnes 3) (BitVec.allOnes 32) (BitVec.allOnes 32) :=
  (by decide : 0x7ffffffffffffffff#67 = commandWord (BitVec.allOnes 3) (BitVec.allOnes 32) (BitVec.allOnes 32))

/-- Every command reads all three bits of `op`. -/
theorem opField_usedBits (i : Instr) : opField (usedBits i) = BitVec.allOnes 3 := by
  cases i with
  | nop | ark | sub | shift | mix => simp only [usedBits, opMask_eq, opField_commandWord]
  | lds b => rw [usedBits_lds, opField_commandWord]
  | ldk k => rw [usedBits_ldk, opField_commandWord]
  | enc b k => rw [usedBits_enc, opField_commandWord]

/-! ## What the decoder keeps of each field -/

/-- A decoded command is that of the opcode it was decoded from (R47). -/
@[simp] theorem opcodeOf_decodeFields (op : BitVec 3) (kin din : PortWord) :
    opcodeOf (decodeFields op kin din) = op := by
  obtain ⟨n⟩ := op
  fin_cases n <;> rfl

/-- The key operand of a decoded command is the bits of `kin` that the command reads. Of the three branches with an
operand, LDK (`h_3`) and ENC (`h_8`) read `kin` and LDS (`h_2`) ignores it. -/
theorem kinOf_decodeFields (op : BitVec 3) (kin din : PortWord) :
    kinOf (decodeFields op kin din) = kin &&& kinField (usedBits (decodeFields op kin din)) := by
  unfold decodeFields
  split
  case h_2 => simp [kinOf, usedBits_lds]
  case h_3 => simp only [kinOf, usedBits_ldk, kinField_commandWord, BitVec.and_allOnes, packBytes_bytesOf]
  case h_8 => simp only [kinOf, usedBits_enc, kinField_commandWord, BitVec.and_allOnes, packBytes_bytesOf]
  all_goals simp [kinOf, usedBits, opMask_eq]

/-- The block operand of a decoded command is the bits of `din` that the command reads. Of the three branches with an
operand, LDS (`h_2`) and ENC (`h_8`) read `din` and LDK (`h_3`) ignores it. -/
theorem dinOf_decodeFields (op : BitVec 3) (kin din : PortWord) :
    dinOf (decodeFields op kin din) = din &&& dinField (usedBits (decodeFields op kin din)) := by
  unfold decodeFields
  split
  case h_2 => simp only [dinOf, usedBits_lds, dinField_commandWord, BitVec.and_allOnes, packBytes_bytesOf]
  case h_3 => simp [dinOf, usedBits_ldk]
  case h_8 => simp only [dinOf, usedBits_enc, dinField_commandWord, BitVec.and_allOnes, packBytes_bytesOf]
  all_goals simp [dinOf, usedBits, opMask_eq]

/-- Which bits a decoded command reads is settled by `op` alone (R47). -/
theorem usedBits_decode_congr {w v : CommandWord} (h : opField w = opField v) :
    usedBits (decode w) = usedBits (decode v) := by
  rw [decode, decode, h]
  unfold decodeFields
  split <;> rfl

/-- The opcode of a decoded word is its field `op` (R47). -/
@[simp] theorem opcodeOf_decode (w : CommandWord) : opcodeOf (decode w) = opField w :=
  opcodeOf_decodeFields _ _ _

/-! ## Encoding and decoding undo each other -/

/-- Decoding an encoded command reads back the opcode and the operands the encoder wrote (R51). -/
@[simp] theorem decode_encode (i : Instr) : decode (encode i) = i := by
  have fields : decode (encode i) = decodeFields (opcodeOf i) (kinOf i) (dinOf i) := by
    simp [decode, encode]
  rw [fields]
  cases i with
  | nop | ark | sub | shift | mix => rfl
  | lds b => exact congrArg Instr.lds (bytesOf_packBytes b)
  | ldk k => exact congrArg Instr.ldk (bytesOf_packBytes k)
  | enc b k => exact congrArg₂ Instr.enc (bytesOf_packBytes b) (bytesOf_packBytes k)

/-- Distinct commands are encoded by distinct words. -/
theorem encode_injective : Function.Injective encode :=
  Function.LeftInverse.injective decode_encode

/-- Re-encoding a decoded word keeps the bits its command reads and clears the ignored ones (R51). -/
theorem encode_decode (w : CommandWord) : encode (decode w) = w &&& usedBits (decode w) := by
  calc encode (decode w)
      = commandWord (opField w) (kinField w &&& kinField (usedBits (decode w)))
          (dinField w &&& dinField (usedBits (decode w))) := by
        rw [encode, opcodeOf_decode, decode, kinOf_decodeFields, dinOf_decodeFields]
    _ = commandWord (opField w) (kinField w) (dinField w) &&& usedBits (decode w) := by
        rw [commandWord_and, opField_usedBits, BitVec.and_allOnes]
    _ = w &&& usedBits (decode w) := by rw [commandWord_fields]

/-! ## Ignored bits -/

/-- The encoder writes every ignored bit as zero (R48). -/
theorem canonicalWord_encode (i : Instr) : canonicalWord (encode i) = true := by
  rw [canonicalWord, ← encode_decode, decode_encode, beq_self_eq_true]

/-- Two words are one command exactly when they have one `op` and agree on the bits it reads (R48). -/
theorem decode_eq_decode_iff (w v : CommandWord) : decode w = decode v ↔
    opField w = opField v ∧ w &&& usedBits (decode w) = v &&& usedBits (decode w) := by
  constructor
  · intro h
    have hop : opField w = opField v := by rw [← opcodeOf_decode w, h, opcodeOf_decode]
    have hread : w &&& usedBits (decode w) = v &&& usedBits (decode w) := by
      rw [← encode_decode w, h, encode_decode]
    exact ⟨hop, hread⟩
  · rintro ⟨hop, hread⟩
    apply encode_injective
    rw [encode_decode, hread, usedBits_decode_congr hop, encode_decode]

/-- Settles O27: a word re-encodes to the bits its command reads, so words that agree on those are one command. -/
theorem ignoredBitsDoNotMatter : Obligations.IgnoredBitsDoNotMatter :=
  ⟨decode_eq_decode_iff, canonicalWord_encode⟩

end Sys2Proof
end

section
/-!
# The construction commands LDS and LDK

Both are the document's `new`: an operand's four bytes go to the cells of a register unchanged (40_construct.md R60,
R61). A word put together from its fields decodes by them (`decode_commandWord`), and a load answers its effect in every
state, for it reads neither register. Each obligation joins the two facts about its command.
-/

namespace Sys2Proof

/-- A word put together from its three fields decodes to the command those fields select (30_encoding.md R45, R47). -/
@[simp] theorem decode_commandWord (op : BitVec 3) (kin din : PortWord) :
    decode (commandWord op kin din) = decodeFields op kin din := by
  rw [decode, opField_commandWord, kinField_commandWord, dinField_commandWord]

/-- `op = 1` selects LDS, its block bytes the lanes of `din` (R47, R49). -/
theorem decodeFields_lds (kin din : PortWord) : decodeFields 1 kin din = .lds (bytesOf din) := rfl

/-- `op = 2` selects LDK, its key bytes the lanes of `kin` (R47, R49). -/
theorem decodeFields_ldk (kin din : PortWord) : decodeFields 2 kin din = .ldk (bytesOf kin) := rfl

namespace Machine

/-- LDS answers the load of `S` whatever the tags are (R60). -/
@[simp] theorem exec_lds (b : ByteVec) (s : State) : exec (.lds b) s = .next (loadS b s) := rfl

/-- LDK answers the load of `K` whatever the tags are (R61). -/
@[simp] theorem exec_ldk (k : ByteVec) (s : State) : exec (.ldk k) s = .next (loadK k s) := rfl

/-- Settles O2: `op = 1` decodes to LDS of the lanes of `din`, which loads `S` and sets `SW` in any state. -/
theorem ldsLoadsTheDataState : Obligations.LdsLoadsTheDataState := by
  constructor
  · intro kin din
    rw [decode_commandWord, decodeFields_lds, bytesOf]
  · intro b s
    rw [exec_lds, loadS, grid]

/-- Settles O3: `op = 2` decodes to LDK of the lanes of `kin`, which loads `K` and sets `KW` in any state. -/
theorem ldkLoadsTheRoundKey : Obligations.LdkLoadsTheRoundKey := by
  constructor
  · intro kin din
    rw [decode_commandWord, decodeFields_ldk, bytesOf]
  · intro k s
    rw [exec_ldk, loadK, grid]

end Machine
end Sys2Proof
end

section
/-!
# The substitution command SUB

SUB is a checked read of `S` and, behind the check, one table lookup per cell (41_substitute.md R65): `exec_sub` says so
once. Whether it faults is then what the check of `SW` says, and the written state is `subEffectUnder` cell by cell.
-/

namespace Sys2Proof

/-- `op = 4` selects SUB, which ignores both operand fields (30_encoding.md R47, R48). -/
theorem decodeFields_sub (kin din : PortWord) : decodeFields 4 kin din = .sub := rfl

namespace Machine

/-- SUB reads `S` behind the check of its tag and substitutes under the engine's own table (R65). -/
theorem exec_sub (s : State) : exec .sub s = readingS s (.next (subEffectUnder Config.SBOX s)) := rfl

/-- SUB faults on `S` while it is unwritten (R65, R102). -/
theorem exec_sub_of_unwritten {s : State} (h : s.SW = false) :
    exec .sub s = .fault (.unwrittenRead .S s.index) := by
  rw [exec_sub, readingS_of_unwritten h]

/-- SUB substitutes every cell of `S` once it is written (R65). -/
theorem exec_sub_of_written {s : State} (h : s.SW = true) :
    exec .sub s = .next (subEffectUnder Config.SBOX s) := by
  rw [exec_sub, readingS_of_written h]

/-- Settles O5: `op = 4` decodes to SUB, which faults on an unwritten `S` and otherwise looks up the low nibble of each
cell. -/
theorem subSubstitutesEveryCell : Obligations.SubSubstitutesEveryCell := by
  refine ⟨?decodes, fun _ => exec_sub_of_unwritten, ?substitutes⟩
  case decodes =>
    intro kin din
    rw [decode_commandWord, decodeFields_sub]
  case substitutes =>
    intro s hSW
    rw [exec_sub_of_written hSW]
    simp only [subEffectUnder, writeS, mapCells, substituteCell, zext8, lowNibble]

end Machine
end Sys2Proof
end

section
/-!
# The shift command SHIFT

SHIFT is a checked read of `S` and, behind the check, the exchange of the two cells of row 1, whole cells and no bit
inside them (42_shift.md R70): `exec_shift` says so once. Whether it faults is then what the check of `SW` says, and the
written state is `shiftEffect`, whose only change is row 1 of `S` (`shiftEffect_eq`).
-/

namespace Sys2Proof

/-- `op = 5` selects SHIFT, which ignores both operand fields (30_encoding.md R47, R48). -/
theorem decodeFields_shift (kin din : PortWord) : decodeFields 5 kin din = .shift := rfl

namespace Machine

/-- SHIFT reads `S` behind the check of its tag and writes it with row 1 swapped (R70). -/
theorem exec_shift (s : State) : exec .shift s = readingS s (.next (shiftEffect s)) := rfl

/-- SHIFT faults on `S` while it is unwritten (R70, R102). -/
theorem exec_shift_of_unwritten {s : State} (h : s.SW = false) :
    exec .shift s = .fault (.unwrittenRead .S s.index) := by
  rw [exec_shift, readingS_of_unwritten h]

/-- SHIFT swaps row 1 of `S` once it is written (R70). -/
theorem exec_shift_of_written {s : State} (h : s.SW = true) :
    exec .shift s = .next (shiftEffect s) := by
  rw [exec_shift, readingS_of_written h]

/-- The effect of SHIFT cell by cell: each cell of row 1 takes the other's old value, and row 0, `K` and the tags stay
(R70). -/
theorem shiftEffect_eq (s : State) :
    shiftEffect s = { s with S := ⟨s.S.c00, s.S.c01, s.S.c11, s.S.c10⟩ } := by
  rw [shiftEffect, swapRowOne, writeS]

/-- Settles O6: `op = 5` decodes to SHIFT, which faults on an unwritten `S` and otherwise exchanges the two cells of
row 1. -/
theorem shiftSwapsRowOne : Obligations.ShiftSwapsRowOne := by
  refine ⟨?decodes, fun _ => exec_shift_of_unwritten, ?swaps⟩
  case decodes =>
    intro kin din
    rw [decode_commandWord, decodeFields_shift]
  case swaps =>
    intro s hSW
    rw [exec_shift_of_written hSW, shiftEffect_eq]

end Machine
end Sys2Proof
end

section
/-!
# The mix command MIX

MIX is a checked read of `S` and, behind the check, the XOR of each column's two cells, both taken before either is
written (43_mix.md R75): `exec_mix` says so once. The mix writes row 1 as `b ^ a`; that this is row 0's `a ^ b`, so that
a column ends with one value in both cells, is `mixColumns_eq`.
-/

namespace Sys2Proof

/-- `op = 6` selects MIX, which ignores both operand fields (30_encoding.md R47, R48). -/
theorem decodeFields_mix (kin din : PortWord) : decodeFields 6 kin din = .mix := rfl

namespace Machine

/-- MIX reads `S` behind the check of its tag and writes it with its columns mixed (R75). -/
theorem exec_mix (s : State) : exec .mix s = readingS s (.next (mixEffect s)) := rfl

/-- MIX faults on `S` while it is unwritten (R75, R102). -/
theorem exec_mix_of_unwritten {s : State} (h : s.SW = false) :
    exec .mix s = .fault (.unwrittenRead .S s.index) := by
  rw [exec_mix, readingS_of_unwritten h]

/-- MIX mixes the columns of `S` once it is written (R75). -/
theorem exec_mix_of_written {s : State} (h : s.SW = true) :
    exec .mix s = .next (mixEffect s) := by
  rw [exec_mix, readingS_of_written h]

/-- Both rows of a mixed grid are the XOR of the two old rows (R75). -/
theorem mixColumns_eq (g : Grid) :
    mixColumns g = ⟨g.c00 ^^^ g.c10, g.c01 ^^^ g.c11, g.c00 ^^^ g.c10, g.c01 ^^^ g.c11⟩ := by
  rw [mixColumns, BitVec.xor_comm g.c10, BitVec.xor_comm g.c11]

/-- Settles O7: `op = 6` decodes to MIX, which faults on an unwritten `S` and otherwise leaves the XOR of a column's old
cells in both of them. -/
theorem mixXorsEachColumn : Obligations.MixXorsEachColumn := by
  refine ⟨?decodes, fun _ => exec_mix_of_unwritten, ?mixes⟩
  case decodes =>
    intro kin din
    rw [decode_commandWord, decodeFields_mix]
  case mixes =>
    intro s hSW
    rw [exec_mix_of_written hSW, mixEffect, mixColumns_eq, writeS]

end Machine
end Sys2Proof
end

section
/-!
# The round-key command ARK

ARK is a read of `S` and, within it, a read of `K`, each behind the check of its tag (44_add_round_key.md R80):
`exec_ark` says so once. The nesting is the order of the checks, so an unwritten `S` is reported whatever `KW` is (R105),
and `K` only behind a written `S`. Behind both, the state is `arkEffect`, whose only change is `S` cell by cell
(`arkEffect_eq`).
-/

namespace Sys2Proof

/-- `op = 3` selects ARK, which ignores both operand fields (30_encoding.md R47, R48). -/
theorem decodeFields_ark (kin din : PortWord) : decodeFields 3 kin din = .ark := rfl

namespace Machine

/-- ARK reads `S` and then `K`, each behind the check of its tag, and writes their XOR to `S` (R80). -/
theorem exec_ark (s : State) : exec .ark s = readingS s (readingK s (.next (arkEffect s))) := rfl

/-- ARK faults on `S` while it is unwritten, whether or not `K` is written (R80, R105). -/
theorem exec_ark_of_unwritten_S {s : State} (h : s.SW = false) :
    exec .ark s = .fault (.unwrittenRead .S s.index) := by
  rw [exec_ark, readingS_of_unwritten h]

/-- ARK faults on `K` while `S` is written and `K` is not (R80, R105). -/
theorem exec_ark_of_unwritten_K {s : State} (hS : s.SW = true) (hK : s.KW = false) :
    exec .ark s = .fault (.unwrittenRead .K s.index) := by
  rw [exec_ark, readingS_of_written hS, readingK_of_unwritten hK]

/-- ARK combines `S` with `K` once both are written (R80). -/
theorem exec_ark_of_written {s : State} (hS : s.SW = true) (hK : s.KW = true) :
    exec .ark s = .next (arkEffect s) := by
  rw [exec_ark, readingS_of_written hS, readingK_of_written hK]

/-- The effect of ARK cell by cell: each cell of `S` takes its XOR with the same cell of `K`, and `K` and the tags stay
(R80). -/
theorem arkEffect_eq (s : State) :
    arkEffect s =
      { s with S := ⟨s.S.c00 ^^^ s.K.c00, s.S.c01 ^^^ s.K.c01, s.S.c10 ^^^ s.K.c10, s.S.c11 ^^^ s.K.c11⟩ } := by
  rw [arkEffect, xorCells, writeS]

/-- Settles O4: `op = 3` decodes to ARK, which faults on an unwritten `S`, then on an unwritten `K`, and otherwise XORs
each cell of `S` with the same cell of `K`. -/
theorem arkXorsTheKeyIntoTheState : Obligations.ArkXorsTheKeyIntoTheState := by
  refine ⟨?decodes, fun _ => exec_ark_of_unwritten_S, fun _ => exec_ark_of_unwritten_K, ?combines⟩
  case decodes =>
    intro kin din
    rw [decode_commandWord, decodeFields_ark]
  case combines =>
    intro s hSW hKW
    rw [exec_ark_of_written hSW hKW, arkEffect_eq]

end Machine
end Sys2Proof
end

section
/-!
# The round command ENC

ENC loads both registers and then does what ARK, SUB, SHIFT, MIX and ARK do, each to the state the one before left, with
no check of a tag in between (45_round.md R85). The five actions behind the loads write `S` alone, so the state after ENC
is one composition of grid functions beside the loaded `K` and tags: `encEffectUnder_eq`, for every table. The
obligation writes that composition out cell by cell.
-/

namespace Sys2Proof

/-- `op = 7` selects ENC, its block bytes the lanes of `din` and its key bytes those of `kin` (30_encoding.md R47,
R49). -/
theorem decodeFields_enc (kin din : PortWord) : decodeFields 7 kin din = .enc (bytesOf din) (bytesOf kin) := rfl

namespace Machine

/-- ENC answers its effect under the engine's own table whatever the tags are (R85). -/
@[simp] theorem exec_enc (b k : ByteVec) (s : State) :
    exec (.enc b k) s = .next (encEffectUnder Config.SBOX b k s) := rfl

/-- A substituted cell is the table's entry at its low nibble, zeros above (41_substitute.md R65). -/
theorem mapCells_substituteCell (table : Nibble → Nibble) (g : Grid) :
    mapCells (substituteCell table) g =
      ⟨(table (g.c00.extractLsb' 0 4)).setWidth 8, (table (g.c01.extractLsb' 0 4)).setWidth 8,
       (table (g.c10.extractLsb' 0 4)).setWidth 8, (table (g.c11.extractLsb' 0 4)).setWidth 8⟩ := by
  simp only [mapCells, substituteCell, zext8, lowNibble]

/-- `S` after ENC, for every table: R85's steps 2 to 6 on the two operand grids, the old registers gone. -/
@[simp] theorem encEffectUnder_S (table : Nibble → Nibble) (b k : ByteVec) (s : State) :
    (encEffectUnder table b k s).S =
      xorCells (mixColumns (swapRowOne (mapCells (substituteCell table) (xorCells (grid b) (grid k))))) (grid k) := by
  simp only [encEffectUnder, arkEffect_S, mixEffect_S, shiftEffect_S, subEffectUnder_S, arkEffect_K, mixEffect_K,
    shiftEffect_K, subEffectUnder_K, loadK_S, loadK_K, loadS_S]

/-- ENC writes `S`, `K` and both tags, and nothing else (R85). -/
theorem encEffectUnder_eq (table : Nibble → Nibble) (b k : ByteVec) (s : State) :
    encEffectUnder table b k s =
      { s with
        S := xorCells (mixColumns (swapRowOne (mapCells (substituteCell table) (xorCells (grid b) (grid k))))) (grid k)
        K := grid k, SW := true, KW := true } := by
  rw [State.mk.injEq, encEffectUnder_S, encEffectUnder_K, encEffectUnder_SW, encEffectUnder_KW,
    encEffectUnder_program, encEffectUnder_index, encEffectUnder_epoch]
  simp only [and_self]

/-- Settles O8: `op = 7` decodes to ENC of the lanes of `din` and `kin`, which in any state performs the six actions on
its operands. -/
theorem encPerformsTheSixActions : Obligations.EncPerformsTheSixActions := by
  constructor
  · intro kin din
    rw [decode_commandWord, decodeFields_enc, bytesOf, bytesOf]
  · intro b k s entry combined substituted shifted mixed
    have combine : xorCells (grid b) (grid k) = combined := by rw [xorCells, grid, grid]
    have substitute : mapCells (substituteCell Config.SBOX) combined = substituted := mapCells_substituteCell _ _
    have shift : swapRowOne substituted = shifted := by rw [swapRowOne]
    have mix : mixColumns shifted = mixed := mixColumns_eq _
    rw [exec_enc, encEffectUnder_eq, combine, substitute, shift, mix, xorCells, grid]

end Machine
end Sys2Proof
end

section
/-!
# The command NOP

NOP answers the very state it is given (46_nop_readout_render.md R93), but accepting it still counts it, so a program
with NOPs inserted runs from states that agree on the registers and differ in `index`. What a command does and whether
it faults depends on the registers alone: `accept_of_sameRegisters`. So equal commands in front of two programs keep their
ends alike (`sameEnd_append`), and NOPs in front of one of them do not tell the two apart.
-/

namespace Sys2Proof

/-- `op = 0` selects NOP, which ignores both operand fields (30_encoding.md R47, R48). -/
theorem decodeFields_nop (kin din : PortWord) : decodeFields 0 kin din = .nop := rfl

namespace Machine

/-- NOP answers the state it is given, whatever the tags are (R93). -/
@[simp] theorem exec_nop (s : State) : exec .nop s = .next s := rfl

/-- An accepted NOP is counted, and that is all it does. -/
theorem accept_of_nop {w : CommandWord} (h : decode w = .nop) (s : State) :
    accept w s = .next (countCommand s) := by
  rw [accept, h, exec_nop, onNext_next]

/-! ## The engine's registers alone decide what a command does -/

theorem sameRegisters_refl (s : State) : sameRegisters s s := ⟨rfl, rfl, rfl, rfl⟩

/-- What a command computes depends on the engine's registers alone. -/
theorem carryOn_sameRegisters {s t : State} (h : sameRegisters s t) (i : Instr) :
    sameRegisters (carryOn i s) (carryOn i t) := by
  obtain ⟨hS, hK, hSW, hKW⟩ := h
  refine ⟨?S, ?K, by rw [carryOn_SW, carryOn_SW, hSW], by rw [carryOn_KW, carryOn_KW, hKW]⟩
  all_goals cases i <;> simp [carryOn, hS, hK]

/-- From equal registers an accepted command leaves equal registers, or faults on the same one. -/
theorem accept_of_sameRegisters {s t : State} (h : sameRegisters s t) (w : CommandWord) :
    (∃ u v, accept w s = .next u ∧ accept w t = .next v ∧ sameRegisters u v) ∨
    ∃ which, accept w s = .fault (.unwrittenRead which s.index) ∧
      accept w t = .fault (.unwrittenRead which t.index) := by
  have after : sameRegisters (countCommand (carryOn (decode w) s)) (countCommand (carryOn (decode w) t)) :=
    carryOn_sameRegisters h _
  obtain ⟨-, -, hSW, hKW⟩ := h
  rw [accept, accept, exec_eq, exec_eq, hSW, hKW]
  split_ifs
  · exact .inr ⟨.S, rfl, rfl⟩
  · exact .inr ⟨.K, rfl, rfl⟩
  · exact .inl ⟨_, _, rfl, rfl, after⟩

/-! ## Runs from equal registers -/

/-- Two programs that end alike from equal registers still do so behind the same commands. -/
theorem sameEnd_append {xs ys : List CommandWord}
    (hxy : ∀ s t, sameRegisters s t → sameEnd (runCommands xs s) (runCommands ys t)) (ws : List CommandWord) :
    ∀ s t, sameRegisters s t → sameEnd (runCommands (ws ++ xs) s) (runCommands (ws ++ ys) t) := by
  induction ws with
  | nil => exact hxy
  | cons w ws ih =>
    intro s t h
    rw [List.cons_append, List.cons_append]
    obtain ⟨u, v, hu, hv, huv⟩ | ⟨which, hs, ht⟩ := accept_of_sameRegisters h w
    · rw [runCommands_of_next hu, runCommands_of_next hv]
      exact ih u v huv
    · rw [runCommands_of_fault hs, runCommands_of_fault ht]
      exact ⟨rfl, h⟩

/-- One program ends alike from equal registers. -/
theorem sameEnd_of_sameRegisters (ws : List CommandWord) {s t : State} (h : sameRegisters s t) :
    sameEnd (runCommands ws s) (runCommands ws t) := by
  have nothing : ∀ s t, sameRegisters s t → sameEnd (runCommands [] s) (runCommands [] t) := fun _ _ h => h
  simpa using sameEnd_append nothing ws s t h

/-- A run of NOPs completes, and keeps the registers equal to what they were equal to. -/
theorem runCommands_of_nops {nops : List CommandWord} (hn : ∀ w ∈ nops, decode w = .nop) {s t : State}
    (h : sameRegisters s t) : ∃ u, runCommands nops s = .completed u ∧ sameRegisters u t := by
  induction nops generalizing s with
  | nil => exact ⟨s, runCommands_nil s, h⟩
  | cons w nops ih =>
    obtain ⟨hw, hrest⟩ := List.forall_mem_cons.1 hn
    have counted : sameRegisters (countCommand s) t := h
    rw [runCommands_of_next (accept_of_nop hw s)]
    exact ih hrest counted

/-- NOPs in front of a program leave its end as it is (R93). -/
theorem sameEnd_nops_append {nops : List CommandWord} (hn : ∀ w ∈ nops, decode w = .nop) (ws : List CommandWord)
    {s t : State} (h : sameRegisters s t) : sameEnd (runCommands (nops ++ ws) s) (runCommands ws t) := by
  obtain ⟨u, hu, hut⟩ := runCommands_of_nops hn h
  rw [runCommands_append_of_completed hu]
  exact sameEnd_of_sameRegisters ws hut

/-- Settles O1: `op = 0` decodes to NOP, which answers the state it is given, and inserted NOPs leave a program's end as
it is, by induction over the commands before them. -/
theorem nopChangesNothing : Obligations.NopChangesNothing := by
  refine ⟨?decodes, exec_nop, ?inserted⟩
  case decodes =>
    intro kin din
    rw [decode_commandWord, decodeFields_nop]
  case inserted =>
    intro before after nops s hn
    rw [List.append_assoc]
    exact sameEnd_append (fun _ _ => sameEnd_nops_append hn after) before s s (sameRegisters_refl s)

end Machine
end Sys2Proof
end

section
/-!
# The output port `dout_valid`

The port is the tag `SW` (46_nop_readout_render.md R95), so it is 0 where a reset leaves the engine, and after a command
it is what the command does to `SW`: set by a load of `S`, kept by every other (`carryOn_SW`).
-/

namespace Sys2Proof.Machine

/-- The port `dout_valid` shows the tag of `S` (R95). -/
@[simp] theorem doutValid_eq_SW (s : State) : doutValid s = s.SW := rfl

/-- Reset wins at a clock edge, whatever is offered (70_reset_and_hazards.md R116). -/
theorem edge_of_rst {e : EdgeInput} (h : e.rst = true) (s : State) : edge e s = .next (resetEvent s) := by
  rw [edge, h, cond_true]

/-- LDS and ENC are the commands that load `S` (10_state.md R14). -/
theorem loadsS_iff (i : Instr) : loadsS i = true ↔ (∃ b, i = .lds b) ∨ ∃ b k, i = .enc b k := by
  cases i <;> simp [loadsS]

/-- Settles O38: `dout_valid` is `SW`, which a reset clears, LDS and ENC set, and every other command keeps. -/
theorem doutValidFromFirstLoadToReset : Obligations.DoutValidFromFirstLoadToReset := by
  refine ⟨doutValid_eq_SW, reset_SW, ?afterReset, ?afterCommand⟩
  case afterReset =>
    intro e s hrst
    exact ⟨resetEvent s, edge_of_rst hrst s, resetEvent_SW s⟩
  case afterCommand =>
    intro i s t h
    obtain ⟨-, rfl⟩ := exec_next h
    rw [doutValid_eq_SW, doutValid_eq_SW, carryOn_SW, Bool.or_eq_true, loadsS_iff, or_comm]

end Sys2Proof.Machine
end

section
/-!
# When a command faults

`exec` is the check of the tags and, behind it, `carryOn` (`exec_eq`). Read as an inversion that is two facts: a command
either carries on or faults with its index (`exec_cases`), and it faults exactly where it reads a register whose tag is 0,
`S` before `K` (`exec_eq_fault`). The table of 60_exceptions.md R102 is the second with the readers named.
-/

namespace Sys2Proof.Machine

/-- ARK, SUB, SHIFT and MIX are the commands that read `S` (10_state.md R14). -/
theorem readsS_iff (i : Instr) : readsS i = true ↔ i = .ark ∨ i = .sub ∨ i = .shift ∨ i = .mix := by
  cases i <;> simp [readsS]

/-- ARK is the command that reads `K` (R14). -/
theorem readsK_iff (i : Instr) : readsK i = true ↔ i = .ark := by
  cases i <;> simp [readsK]

/-- The one command that reads `K` reads `S` as well (R14). -/
theorem readsS_of_readsK {i : Instr} (h : readsK i = true) : readsS i = true := by
  rw [(readsK_iff i).1 h, readsS]

/-- A step has no third outcome: a command does what the hardware does, or faults with its index (00_scope.md R8). -/
theorem exec_cases (i : Instr) (s : State) :
    exec i s = .next (carryOn i s) ∨ ∃ which, exec i s = .fault (.unwrittenRead which s.index) := by
  rw [exec_eq]
  split_ifs
  · exact .inr ⟨.S, rfl⟩
  · exact .inr ⟨.K, rfl⟩
  · exact .inl rfl

/-- A command faults exactly where it reads an unwritten register. `K` is reported only behind a written `S`, because a
command that reads `K` reads `S` as well (R102, R105). -/
theorem exec_eq_fault {i : Instr} {s : State} {f : Fault} :
    exec i s = .fault f ↔
      readsS i = true ∧ s.SW = false ∧ f = .unwrittenRead .S s.index ∨
      readsK i = true ∧ s.SW = true ∧ s.KW = false ∧ f = .unwrittenRead .K s.index := by
  rw [exec_eq]
  cases hSW : s.SW with
  | false =>
    by_cases hS : readsS i = true
    · simp [hS, eq_comm (a := f)]
    · simp [hS, mt readsS_of_readsK hS]
  | true =>
    by_cases hK : readsK i = true
    · cases s.KW <;> simp [hK, eq_comm (a := f)]
    · simp [hK]

/-- Settles O22: a command faults exactly by R102's table, is never refused, and otherwise carries on, by the check that
`exec` makes before `carryOn`. -/
theorem commandsFaultExactlyByTheTable : Obligations.CommandsFaultExactlyByTheTable := by
  refine ⟨?table, fun _ => ⟨rfl, rfl⟩, ?neverRefused, ?carriesOn⟩
  case table =>
    intro i s f
    rw [exec_eq_fault, readsS_iff, readsK_iff]
  case neverRefused =>
    intro i s r
    obtain h | ⟨which, h⟩ := exec_cases i s <;> simp [h]
  case carriesOn =>
    intro i s hnone
    obtain h | ⟨which, h⟩ := exec_cases i s
    · exact h
    · exact absurd h (hnone _)

end Sys2Proof.Machine
end

section
/-!
# A fault ends the run

Behind commands that complete, a run is a run from the state they left (`runCommands_append_of_completed`), and a command
that faults there ends it with that state (60_exceptions.md R103, R104). The index the fault records is that state's, and
each completed command has advanced it by one (`runCommands_index`).
-/

namespace Sys2Proof.Machine

/-- An accepted command faults exactly where the decoded command does. -/
theorem accept_eq_fault {w : CommandWord} {s : State} {f : Fault} :
    accept w s = .fault f ↔ exec (decode w) s = .fault f := onNext_eq_fault

/-- A fault records the index of the command that raised it (R102). -/
theorem accept_fault_index {w : CommandWord} {s : State} {f : Fault} (h : accept w s = .fault f) :
    ∃ which, f = .unwrittenRead which s.index := by
  obtain ⟨-, -, hf⟩ | ⟨-, -, -, hf⟩ := exec_eq_fault.1 (accept_eq_fault.1 h)
  · exact ⟨.S, hf⟩
  · exact ⟨.K, hf⟩

/-- An accepted command is counted, and nothing else advances the index (R102). -/
theorem accept_index {w : CommandWord} {s t : State} (h : accept w s = .next t) : t.index = s.index + 1 := by
  obtain ⟨-, rfl⟩ := accept_next h
  rw [countCommand_index, carryOn_index]

/-- A run completes exactly when its first command does and the rest completes from there (20_memory.md R38). -/
theorem runCommands_cons_eq_completed {w : CommandWord} {ws : List CommandWord} {s t : State} :
    runCommands (w :: ws) s = .completed t ↔ ∃ u, accept w s = .next u ∧ runCommands ws u = .completed t := by
  cases h : accept w s <;> simp [runCommands, h]

/-- A completed run has advanced the index by the number of its commands. -/
theorem runCommands_index {ws : List CommandWord} {s t : State} (h : runCommands ws s = .completed t) :
    t.index = s.index + ws.length := by
  induction ws generalizing s with
  | nil =>
    cases h
    rfl
  | cons w ws ih =>
    obtain ⟨u, hu, hrest⟩ := runCommands_cons_eq_completed.1 h
    rw [ih hrest, accept_index hu, List.length_cons, Nat.add_assoc, Nat.add_comm 1]

/-- Settles O23: the run reaches the faulting command in the state the commands before left, and ends there; that state's
index counts them. -/
theorem faultEndsTheRun : Obligations.FaultEndsTheRun := by
  intro ws rest w s t f hws hw
  have ends : runCommands (ws ++ w :: rest) s = .faulted f t := by
    rw [runCommands_append_of_completed hws, runCommands_of_fault hw]
  refine ⟨ends, by rw [ends, resultOf], ?index⟩
  rw [← runCommands_index hws]
  exact accept_fault_index hw

end Sys2Proof.Machine
end

section
/-!
# When a run completes

A command completes exactly where the registers it reads are loaded (`exec_eq_next`), and the command behind it sees what
it loaded in the tags (`carryOn_SW`, `carryOn_KW`). That is the recursion of `loadsFirst`, so the run and the list agree
command by command (70_reset_and_hazards.md R117), and a run has a result exactly where it completes (R126).
-/

namespace Sys2Proof.Machine

/-- A register that is read is written: `loadedFor` as one implication per register (60_exceptions.md R102). -/
theorem loadedFor_iff {i : Instr} {sw kw : Bool} :
    loadedFor i sw kw = true ↔ (readsS i = true → sw = true) ∧ (readsK i = true → kw = true) := by
  cases sw <;> cases kw <;> simp [loadedFor]

/-- A command completes exactly where its registers are loaded: neither check of the tags holds it up (R102). -/
theorem exec_eq_next {i : Instr} {s t : State} :
    exec i s = .next t ↔ loadedFor i s.SW s.KW = true ∧ carryOn i s = t := by
  refine ⟨exec_next, ?_⟩
  rintro ⟨hl, rfl⟩
  obtain ⟨hS, hK⟩ := loadedFor_iff.1 hl
  have passesS : ¬(s.SW = false ∧ readsS i = true) := fun ⟨hSW, hr⟩ => Bool.false_ne_true (hSW ▸ hS hr)
  have passesK : ¬(s.KW = false ∧ readsK i = true) := fun ⟨hKW, hr⟩ => Bool.false_ne_true (hKW ▸ hK hr)
  rw [exec_eq, if_neg passesS, if_neg passesK]

/-- A run completes exactly when its first command has its registers loaded and the rest completes behind it. -/
theorem runCommands_cons_completes_iff {w : CommandWord} {ws : List CommandWord} {s : State} :
    (∃ t, runCommands (w :: ws) s = .completed t) ↔
      loadedFor (decode w) s.SW s.KW = true ∧
        ∃ t, runCommands ws (countCommand (carryOn (decode w) s)) = .completed t := by
  simp [runCommands_cons_eq_completed, accept_eq_next, exec_eq_next, and_assoc]

/-- A run completes exactly when every command of it comes after the loads it needs (R117). -/
theorem runCommands_completes_iff (ws : List CommandWord) (s : State) :
    (∃ t, runCommands ws s = .completed t) ↔ loadsFirst s.SW s.KW (ws.map decode) = true := by
  induction ws generalizing s with
  | nil => simp [loadsFirst]
  | cons w ws ih =>
    rw [runCommands_cons_completes_iff, ih, countCommand_SW, countCommand_KW, carryOn_SW, carryOn_KW, List.map_cons,
      loadsFirst, Bool.and_eq_true]

/-- A run has a result exactly where it completed (R126). -/
theorem resultOf_isSome_iff (e : RunEnd) : (resultOf e).isSome = true ↔ ∃ t, e = .completed t := by
  cases e <;> simp [resultOf]

/-- Settles O24, by induction on the list of commands: each command completes exactly where its registers are loaded, and
leaves the tags the rest of the list is read from. -/
theorem runCompletesIffLoadsComeFirst : Obligations.RunCompletesIffLoadsComeFirst := by
  intro ws s
  have completes := runCommands_completes_iff ws s
  exact ⟨completes, (resultOf_isSome_iff _).trans completes⟩

end Sys2Proof.Machine
end

section
/-!
# Reset wins over a command

At an edge with `rst = 1` the answer is the reset event whatever is offered (`edge_of_rst`), and the event clears both
tags by the laws of the state (70_reset_and_hazards.md R115, R116).
-/

namespace Sys2Proof.Machine

/-- Settles O35: an edge with `rst = 1` answers the reset event whatever is offered, and that event clears both tags. -/
theorem resetWinsOverACommand : Obligations.ResetWinsOverACommand := by
  intro e s hrst
  exact ⟨edge_of_rst hrst s, resetEvent_SW s, resetEvent_KW s⟩

end Sys2Proof.Machine
end

section
/-!
# Decoder and encoder

That `decode` and `encode` undo each other up to the ignored bits (30_encoding.md R51) stands above as `decode_encode`
and `encode_decode`. A row of the opcode map compares the field `op` alone (`rowMatches_of_opMask`), and so does the
mnemonic of a decoded word, so the eight values of `op` settle which rows a word belongs to (R47, R50).
-/

namespace Sys2Proof

/-- Settles O25: decoding reads back the opcode and the operands the encoder wrote. -/
theorem decodeOfEncodeIsTheCommand : Obligations.DecodeOfEncodeIsTheCommand := decode_encode

/-- Settles O26: re-encoding a decoded word masks it, field by field, with the bits its command reads. -/
theorem encodeOfDecodeClearsIgnoredBits : Obligations.EncodeOfDecodeClearsIgnoredBits := encode_decode

/-! ## The rows of the opcode map -/

/-- Masking with the rows' mask keeps `op` and clears both operand fields. -/
theorem and_opMask (w : CommandWord) : w &&& opMask = commandWord (opField w) 0 0 := by
  calc w &&& opMask
      = commandWord (opField w) (kinField w) (dinField w) &&& commandWord (BitVec.allOnes 3) 0 0 := by
        rw [commandWord_fields, opMask_eq]
    _ = commandWord (opField w) 0 0 := by
        rw [commandWord_and, opField_commandWord, kinField_commandWord, dinField_commandWord, BitVec.and_allOnes]
        simp only [BitVec.ofNat_eq_ofNat, BitVec.and_zero]

/-- A row with the rows' mask looks at the field `op` alone. -/
theorem rowMatches_of_opMask {r : OpcodeRow} (h : r.mask = opMask) (w : CommandWord) :
    rowMatches r w = rowMatches r (commandWord (opField w) 0 0) := by
  simp only [rowMatches, h, and_opMask, opField_commandWord]

/-- Every row of the opcode map has that mask (R47). -/
theorem mask_of_mem_opcodeMap : ∀ r ∈ opcodeMap, r.mask = opMask := by
  simp [opcodeMap]

/-- The mnemonic of a decoded command is settled by `op` alone. -/
theorem mnemonicOf_decodeFields (op : BitVec 3) (kin din : PortWord) :
    mnemonicOf (decodeFields op kin din) = mnemonicOf (decodeFields op 0 0) := by
  unfold decodeFields
  split <;> rfl

/-- For each of the eight values of `op` one row matches, the row of its command (R47). -/
theorem opcodeMap_rows_of_op (op : BitVec 3) :
    (opcodeMap.filter fun r => rowMatches r (commandWord op 0 0)).map OpcodeRow.mnemonic =
      [mnemonicOf (decodeFields op 0 0)] := by
  obtain ⟨n⟩ := op
  fin_cases n <;> rfl

/-- Settles O28: rows and mnemonic look at `op` alone, and for each value of `op` the one matching row is the decoded
command's. -/
theorem everyWordHasOneOpcodeRow : Obligations.EveryWordHasOneOpcodeRow := by
  intro w
  rw [decode, mnemonicOf_decodeFields, ← opcodeMap_rows_of_op]
  congr 1
  exact List.filter_congr fun r hr => rowMatches_of_opMask (mask_of_mem_opcodeMap r hr) w

/-- Settles O29: each word is closed, so the decoder is evaluated on it. -/
theorem specWordsDecode : Obligations.SpecWordsDecode := by
  unfold Obligations.SpecWordsDecode
  decide

end Sys2Proof
end

section
/-!
# What the assembler makes of a line

A line's words are the encoded commands it stands for, so decoding them gives the commands back (`decode_encode`) and
they are canonical (`canonicalWord_encode`). As a number a command word counts its fields and a port its byte lanes in
powers of two (30_encoding.md R57, R49), and a byte written below 256 is its own value (R53).
-/

namespace Sys2Proof.Machine

/-- Encoding a line's commands and decoding the words gives the commands back. -/
theorem map_decode_map_encode (cs : List Instr) : (cs.map encode).map decode = cs := by
  rw [List.map_map, Function.LeftInverse.comp_eq_id decode_encode, List.map_id]

/-- A line stands for commands exactly with the words that encode them. -/
theorem assembleLine_of_commandsOf {l : SourceLine} {cs : List Instr} (h : commandsOf l = some cs) :
    assembleLine l = some (cs.map encode) := by
  rw [assembleLine, h, Option.map_some]

/-- The one number of a command word: its opcode, its `kin` and its `din` (R57). -/
theorem encode_eq_ofNat (i : Instr) :
    encode i = .ofNat 67 ((opcodeOf i).toNat * 2 ^ 64 + (kinOf i).toNat * 2 ^ 32 + (dinOf i).toNat) := by
  rw [← commandWord_toNat, BitVec.ofNat_toNat, BitVec.setWidth_eq, encode]

/-- LDS as a number: opcode 1, and zero in the field `kin` (R48). -/
theorem encode_lds_eq_ofNat (b : ByteVec) : encode (.lds b) = .ofNat 67 (1 * 2 ^ 64 + (packBytes b).toNat) := by
  rw [encode_eq_ofNat]
  simp [opcodeOf, kinOf, dinOf]

/-- LDK as a number: opcode 2, and zero in the field `din` (R48). -/
theorem encode_ldk_eq_ofNat (k : ByteVec) :
    encode (.ldk k) = .ofNat 67 (2 * 2 ^ 64 + (packBytes k).toNat * 2 ^ 32) := by
  rw [encode_eq_ofNat]
  simp [opcodeOf, kinOf, dinOf]

/-- ENC as a number: opcode 7, and both fields its operands. -/
theorem encode_enc_eq_ofNat (b k : ByteVec) :
    encode (.enc b k) = .ofNat 67 (7 * 2 ^ 64 + (packBytes k).toNat * 2 ^ 32 + (packBytes b).toNat) := by
  rw [encode_eq_ofNat]
  simp [opcodeOf, kinOf, dinOf]

section
variable {n0 n1 n2 n3 : Nat} (h0 : n0 < 256) (h1 : n1 < 256) (h2 : n2 < 256) (h3 : n3 < 256)
include h0 h1 h2 h3

/-- Four numbers below 256 are a four-byte operand (R53). -/
theorem fourBytes_of_lt :
    fourBytes [n0, n1, n2, n3] = some ⟨.ofNat 8 n0, .ofNat 8 n1, .ofNat 8 n2, .ofNat 8 n3⟩ :=
  if_pos ⟨h0, h1, h2, h3⟩

/-- The port value of four numbers below 256: byte `i` at bit `8i`, each at its own value (R49). -/
theorem packBytes_ofNat_toNat :
    (packBytes ⟨.ofNat 8 n0, .ofNat 8 n1, .ofNat 8 n2, .ofNat 8 n3⟩).toNat =
      n0 + n1 * 2 ^ 8 + n2 * 2 ^ 16 + n3 * 2 ^ 24 := by
  simp only [packBytes_toNat, BitVec.toNat_ofNat, Nat.mod_eq_of_lt h0, Nat.mod_eq_of_lt h1, Nat.mod_eq_of_lt h2,
    Nat.mod_eq_of_lt h3]

theorem commandsOf_lds :
    commandsOf ⟨.lds, [n0, n1, n2, n3], []⟩ = some [.lds ⟨.ofNat 8 n0, .ofNat 8 n1, .ofNat 8 n2, .ofNat 8 n3⟩] := by
  simp only [commandsOf, fourBytes_of_lt h0 h1 h2 h3, if_true, Option.map_some]

theorem commandsOf_ldk :
    commandsOf ⟨.ldk, [n0, n1, n2, n3], []⟩ = some [.ldk ⟨.ofNat 8 n0, .ofNat 8 n1, .ofNat 8 n2, .ofNat 8 n3⟩] := by
  simp only [commandsOf, fourBytes_of_lt h0 h1 h2 h3, if_true, Option.map_some]

end

/-- Settles O30: a line's words are its encoded commands, which decode back and are canonical; each word as a number is
its fields and byte lanes in powers of two. -/
theorem assembledWordsDecodeToTheLine : Obligations.AssembledWordsDecodeToTheLine := by
  refine ⟨?accepted, ?loads, ?enc, ?plain, rfl, by decide⟩
  case accepted =>
    intro l hl
    obtain ⟨cs, hcs⟩ := Option.isSome_iff_exists.1 hl
    refine ⟨cs, cs.map encode, hcs, assembleLine_of_commandsOf hcs, map_decode_map_encode cs, ?_⟩
    exact List.forall_mem_map.2 fun i _ => canonicalWord_encode i
  case loads =>
    intro n0 n1 n2 n3 h0 h1 h2 h3
    have hlds := commandsOf_lds h0 h1 h2 h3
    have hldk := commandsOf_ldk h0 h1 h2 h3
    refine ⟨hlds, ?_, hldk, ?_⟩
    · rw [assembleLine_of_commandsOf hlds, List.map_singleton, encode_lds_eq_ofNat,
        packBytes_ofNat_toNat h0 h1 h2 h3]
    · rw [assembleLine_of_commandsOf hldk, List.map_singleton, encode_ldk_eq_ofNat,
        packBytes_ofNat_toNat h0 h1 h2 h3]
  case enc =>
    intro b0 b1 b2 b3 k0 k1 k2 k3 hb0 hb1 hb2 hb3 hk0 hk1 hk2 hk3
    have henc : commandsOf ⟨.enc, [b0, b1, b2, b3], [k0, k1, k2, k3]⟩ =
        some [.enc ⟨.ofNat 8 b0, .ofNat 8 b1, .ofNat 8 b2, .ofNat 8 b3⟩
          ⟨.ofNat 8 k0, .ofNat 8 k1, .ofNat 8 k2, .ofNat 8 k3⟩] := by
      simp only [commandsOf, fourBytes_of_lt hb0 hb1 hb2 hb3, fourBytes_of_lt hk0 hk1 hk2 hk3, Option.bind_some,
        Option.map_some]
    refine ⟨henc, ?_⟩
    rw [assembleLine_of_commandsOf henc, List.map_singleton, encode_enc_eq_ofNat,
      packBytes_ofNat_toNat hb0 hb1 hb2 hb3, packBytes_ofNat_toNat hk0 hk1 hk2 hk3]
  case plain => decide

end Sys2Proof.Machine
end

section
/-!
# An unwritten register holds what reset left in it

A command that completes leaves a register's tag 0 only where it neither loads that register nor, its own registers
being loaded, reads it (`loadedFor_iff`); and a command that does neither leaves the register as it is (10_state.md R14).
That is the invariant for one command, `unwrittenHoldsReset_carryOn`. A step is a command or nothing (`step_next`), and
an edge a reset event as well (`edge_next`).
-/

namespace Sys2Proof.Machine

/-- A command that neither reads nor loads `S` leaves it (R14). -/
theorem carryOn_S_of_untouched {i : Instr} (hr : readsS i = false) (hl : loadsS i = false) (s : State) :
    (carryOn i s).S = s.S := by
  cases i with
  | nop => rfl
  | ldk k => rfl
  | lds b | enc b k => simp [loadsS] at hl
  | ark | sub | shift | mix => simp [readsS] at hr

/-! ## The invariant through one command, one count and one reset -/

/-- The invariant through one command whose registers are loaded. -/
theorem unwrittenHoldsReset_carryOn {i : Instr} {s : State} (hl : loadedFor i s.SW s.KW = true)
    (hs : UnwrittenHoldsReset s) : UnwrittenHoldsReset (carryOn i s) := by
  obtain ⟨hS, hK⟩ := hs
  obtain ⟨hreads, -⟩ := loadedFor_iff.1 hl
  constructor
  · intro hSW
    obtain ⟨hloads, hSW⟩ := Bool.or_eq_false_iff.1 ((carryOn_SW i s).symm.trans hSW)
    have hnot : readsS i = false := by
      rw [← Bool.not_eq_true]
      exact fun hr => Bool.false_ne_true (hSW.symm.trans (hreads hr))
    rw [carryOn_S_of_untouched hnot hloads, carryOn_epoch, hS hSW]
  · intro hKW
    obtain ⟨hloads, hKW⟩ := Bool.or_eq_false_iff.1 ((carryOn_KW i s).symm.trans hKW)
    rw [carryOn_K_of_not_loadsK hloads, carryOn_epoch, hK hKW]

/-- Counting a command is no matter of the registers. -/
theorem unwrittenHoldsReset_countCommand {s : State} (hs : UnwrittenHoldsReset s) :
    UnwrittenHoldsReset (countCommand s) := hs

/-- Neither is what the host has still to issue. -/
theorem unwrittenHoldsReset_setProgram {s : State} (hs : UnwrittenHoldsReset s) (p : List CommandWord) :
    UnwrittenHoldsReset (setProgram p s) := hs

/-- A reset event leaves in both registers the contents of the run it begins (R23, R24). -/
theorem unwrittenHoldsReset_resetEvent (s : State) : UnwrittenHoldsReset (resetEvent s) :=
  ⟨fun _ => by rw [resetEvent_S, resetEvent_epoch], fun _ => by rw [resetEvent_K, resetEvent_epoch]⟩

/-! ## One clock edge -/

/-- An edge without reset accepts the command on the ports (30_encoding.md R46). -/
theorem edge_of_cmdValid {e : EdgeInput} (hrst : e.rst = false) (hv : e.cmdValid = true) (s : State) :
    edge e s = accept (portWord e) s := by
  rw [edge, hrst, hv, cond_false, cmdReady, Bool.and_true, cond_true]

/-- An edge with neither reset nor command changes nothing (R46). -/
theorem edge_of_idle {e : EdgeInput} (hrst : e.rst = false) (hv : e.cmdValid = false) (s : State) :
    edge e s = .next s := by
  rw [edge, hrst, hv, cond_false, Bool.false_and, cond_false, idle]

/-- An edge to a next state is a reset, an accepted command or nothing. -/
theorem edge_next {e : EdgeInput} {s t : State} (h : edge e s = .next t) :
    t = resetEvent s ∨ accept (portWord e) s = .next t ∨ t = s := by
  cases hrst : e.rst with
  | true =>
    rw [edge_of_rst hrst] at h
    cases h
    exact .inl rfl
  | false =>
    cases hv : e.cmdValid with
    | true => exact .inr (.inl (edge_of_cmdValid hrst hv s ▸ h))
    | false =>
      rw [edge_of_idle hrst hv] at h
      cases h
      exact .inr (.inr rfl)

/-! ## The obligations -/

/-- Settles O39: a step is one command behind the check of its tags, and such a command keeps the invariant. -/
theorem stepKeepsUnwrittenRegisters : Obligations.StepKeepsUnwrittenRegisters := by
  intro s t hs h
  obtain ⟨-, rfl⟩ | ⟨w, rest, -, hl, rfl⟩ := step_next h
  · exact hs
  · exact unwrittenHoldsReset_setProgram (unwrittenHoldsReset_countCommand (unwrittenHoldsReset_carryOn hl hs)) rest

/-- Settles O40: an edge is a reset event, a command behind the check of its tags, or nothing, and each keeps the
invariant. -/
theorem edgeKeepsUnwrittenRegisters : Obligations.EdgeKeepsUnwrittenRegisters := by
  intro e s t hs h
  obtain rfl | haccept | rfl := edge_next h
  · exact unwrittenHoldsReset_resetEvent s
  · obtain ⟨hl, rfl⟩ := accept_next haccept
    exact unwrittenHoldsReset_countCommand (unwrittenHoldsReset_carryOn hl hs)
  · exact hs

/-- Settles O41: the state a run begins in has the contents of epoch 0 in both registers. -/
theorem resetMeetsUnwrittenRegisters : Obligations.ResetMeetsUnwrittenRegisters :=
  ⟨fun _ => rfl, fun _ => rfl⟩

end Sys2Proof.Machine
end

section
/-!
# Low operand bytes keep the loaded cells low

A cell in [0,15] is a zero-extended nibble (`lowCell_iff`), so every transform keeps a grid of such cells, and SUB makes
any grid one (10_state.md R13). A command with low operands then leaves a loaded register low, where its own registers
were loaded and low before: `carryOn_lowCells_S` and `carryOn_lowCells_K`.
-/

namespace Sys2Proof.Machine

/-! ## Grids of low cells -/

/-- A grid is low exactly when each of its cells is. -/
theorem lowCells_iff (g : Grid) : lowCells g = true ↔
    lowCell g.c00 = true ∧ lowCell g.c01 = true ∧ lowCell g.c10 = true ∧ lowCell g.c11 = true := by
  rw [lowCells, Bool.and_eq_true, Bool.and_eq_true, Bool.and_eq_true, and_assoc, and_assoc]

/-- ARK's combination of two low grids is low (R13). -/
theorem lowCells_xorCells {g h : Grid} (hg : lowCells g = true) (hh : lowCells h = true) :
    lowCells (xorCells g h) = true := by
  obtain ⟨g00, g01, g10, g11⟩ := (lowCells_iff g).1 hg
  obtain ⟨h00, h01, h10, h11⟩ := (lowCells_iff h).1 hh
  exact (lowCells_iff _).2 ⟨lowCell_xor g00 h00, lowCell_xor g01 h01, lowCell_xor g10 h10, lowCell_xor g11 h11⟩

/-- SUB leaves low cells, whatever the table and whatever was there (R13 clause a). -/
theorem lowCells_mapCells_substituteCell (table : Nibble → Nibble) (g : Grid) :
    lowCells (mapCells (substituteCell table) g) = true :=
  (lowCells_iff _).2 ⟨lowCell_zext8 _, lowCell_zext8 _, lowCell_zext8 _, lowCell_zext8 _⟩

/-- SHIFT moves cells whole, so low cells stay low (R13 clause b). -/
theorem lowCells_swapRowOne {g : Grid} (hg : lowCells g = true) : lowCells (swapRowOne g) = true := by
  obtain ⟨g00, g01, g10, g11⟩ := (lowCells_iff g).1 hg
  exact (lowCells_iff _).2 ⟨g00, g01, g11, g10⟩

/-- MIX combines low cells to low cells (R13 clause b). -/
theorem lowCells_mixColumns {g : Grid} (hg : lowCells g = true) : lowCells (mixColumns g) = true := by
  obtain ⟨g00, g01, g10, g11⟩ := (lowCells_iff g).1 hg
  exact (lowCells_iff _).2 ⟨lowCell_xor g00 g10, lowCell_xor g01 g11, lowCell_xor g10 g00, lowCell_xor g11 g01⟩

/-! ## One command -/

/-- Behind a command with low operands, a loaded `S` is low if the loaded registers were. -/
theorem carryOn_lowCells_S {i : Instr} {s : State} (hl : loadedFor i s.SW s.KW = true)
    (ho : lowOperands i = true) (hS : s.SW = true → lowCells s.S = true) (hK : s.KW = true → lowCells s.K = true)
    (hSW : (carryOn i s).SW = true) : lowCells (carryOn i s).S = true := by
  obtain ⟨hreadsS, hreadsK⟩ := loadedFor_iff.1 hl
  cases i with
  | nop => exact hS hSW
  | lds b => exact ho
  | ldk k => exact hS hSW
  | ark => exact lowCells_xorCells (hS hSW) (hK (hreadsK rfl))
  | sub => exact lowCells_mapCells_substituteCell Config.SBOX s.S
  | shift => exact lowCells_swapRowOne (hS hSW)
  | mix => exact lowCells_mixColumns (hS hSW)
  | enc b k =>
    obtain ⟨-, hk⟩ := (Bool.and_eq_true _ _).mp ho
    rw [carryOn, encEffectUnder_S]
    exact lowCells_xorCells (lowCells_mixColumns (lowCells_swapRowOne (lowCells_mapCells_substituteCell _ _))) hk

/-- Behind a command with low operands, a loaded `K` is low if it was. -/
theorem carryOn_lowCells_K {i : Instr} {s : State} (ho : lowOperands i = true)
    (hK : s.KW = true → lowCells s.K = true) (hKW : (carryOn i s).KW = true) :
    lowCells (carryOn i s).K = true := by
  cases i with
  | nop | lds b | ark | sub | shift | mix => exact hK hKW
  | ldk k => exact ho
  | enc b k =>
    obtain ⟨-, hk⟩ := (Bool.and_eq_true _ _).mp ho
    exact hk

/-- Settles O42: a step is one command of the host's list, whose operands are low, behind the check of its tags; such a
command keeps the loaded registers low, and the list only gets shorter. -/
theorem stepKeepsLowNibbleRun : Obligations.StepKeepsLowNibbleRun := by
  intro s t hs h
  obtain ⟨-, rfl⟩ | ⟨w, rest, hp, hl, rfl⟩ := step_next h
  · exact hs
  · obtain ⟨hS, hK, hprogram⟩ := hs
    obtain ⟨hw, hrest⟩ := List.forall_mem_cons.1 (hp ▸ hprogram)
    exact ⟨carryOn_lowCells_S hl hw hS hK, carryOn_lowCells_K hw hK, hrest⟩

/-- Settles O43: after reset no register is loaded and the host has issued nothing. -/
theorem resetMeetsLowNibbleRun : Obligations.ResetMeetsLowNibbleRun := by
  refine ⟨?S, ?K, ?program⟩
  case S => simp only [reset_SW, Bool.false_eq_true, false_implies]
  case K => simp only [reset_KW, Bool.false_eq_true, false_implies]
  case program => simp only [reset_program, List.not_mem_nil, false_implies, implies_true]

end Sys2Proof.Machine
end

section
/-!
# The round in closed form

Behind the round's two whitenings stand four nibbles, and each column mixes two of their table entries into one nibble,
which both of its cells receive (45_round.md R88): `S` after ENC is `columnsUnderKey` of two nibbles and the key
(`encEffectUnder_S_closed`), and nothing else of the block or of the state before is in the next state
(`encEffectUnder_closed`). So for one key two nibbles count the outputs, the high nibbles are the key's, and blocks
alike in their low nibbles are one to ENC. ENC then has no inverse (R90): two blocks meet after one ENC, so they meet
after two, and cannot both have come back.
-/

namespace Sys2Proof.Machine

/-! ## Two nibbles under a key -/

/-- The grid of a round's two mixed nibbles, one per column, combined with the key (R88). -/
def columnsUnderKey (m0 m1 : Nibble) (k : ByteVec) : Grid :=
  ⟨zext8 m0 ^^^ k.b0, zext8 m1 ^^^ k.b1, zext8 m0 ^^^ k.b2, zext8 m1 ^^^ k.b3⟩

/-- The nibble a whitened byte looks up in the table: the low nibble of block byte and key byte combined (R88). -/
def whitened (b k : Byte) : Nibble := lowNibble (b ^^^ k)

/-- The nibble that column 0 receives: the entries of bytes 0 and 3, which SHIFT brought together. -/
def mixedNibble0 (table : Nibble → Nibble) (b k : ByteVec) : Nibble :=
  table (whitened b.b0 k.b0) ^^^ table (whitened b.b3 k.b3)

/-- The nibble that column 1 receives: the entries of bytes 1 and 2. -/
def mixedNibble1 (table : Nibble → Nibble) (b k : ByteVec) : Nibble :=
  table (whitened b.b1 k.b1) ^^^ table (whitened b.b2 k.b2)

/-- The table's entry is looked up at the whitened nibble. -/
theorem substituteCell_xor (table : Nibble → Nibble) (b k : Byte) :
    substituteCell table (b ^^^ k) = zext8 (table (whitened b k)) := rfl

/-- `S` after ENC, for every table (R88). -/
theorem encEffectUnder_S_closed (table : Nibble → Nibble) (b k : ByteVec) (s : State) :
    (encEffectUnder table b k s).S = columnsUnderKey (mixedNibble0 table b k) (mixedNibble1 table b k) k := by
  rw [encEffectUnder_S, mixColumns_eq]
  simp only [swapRowOne, mapCells, xorCells, grid, substituteCell_xor, zext8_xor, columnsUnderKey, mixedNibble0,
    mixedNibble1]

/-- The whole state after ENC: the closed form in `S`, the key in `K`, both tags set, the rest as it was. -/
theorem encEffectUnder_closed (table : Nibble → Nibble) (b k : ByteVec) (s : State) :
    encEffectUnder table b k s =
      { s with
        S := columnsUnderKey (mixedNibble0 table b k) (mixedNibble1 table b k) k
        K := grid k, SW := true, KW := true } := by
  rw [← encEffectUnder_S_closed table b k s, encEffectUnder_S, encEffectUnder_eq]

/-- The two cells of a column differ by the key's (R88 a). -/
theorem zext8_xor_xor_cancel (m : Nibble) (u v : Byte) : zext8 m ^^^ u ^^^ (zext8 m ^^^ v) = u ^^^ v := by
  rw [BitVec.xor_comm (zext8 m) u, BitVec.xor_assoc, ← BitVec.xor_assoc (zext8 m), BitVec.xor_self, BitVec.zero_xor]

/-- The XOR of two entries of a bijective table is 0 exactly when they are one entry (R88 d). -/
theorem perm_xor_eq_zero_iff (table : Equiv.Perm Nibble) (m n : Nibble) : table m ^^^ table n = 0 ↔ m = n :=
  BitVec.xor_eq_zero_iff.trans table.apply_eq_iff_eq

/-- Settles O9: the closed form, in which a column's cells share one mixed nibble, and that nibble is 0 where the
bijective table is looked up twice at one place. -/
theorem roundHasItsClosedForm : Obligations.RoundHasItsClosedForm := by
  intro b k s x0 x1 x2 x3 m0 m1
  have closed : (encEffectUnder Config.SBOX b k s).S = columnsUnderKey m0 m1 k := encEffectUnder_S_closed _ b k s
  refine ⟨_, exec_enc b k s, closed, ?_, ?_, perm_xor_eq_zero_iff _ x0 x3, perm_xor_eq_zero_iff _ x1 x2⟩
  all_goals
    rw [closed]
    exact zext8_xor_xor_cancel _ _ _

/-! ## How many outputs a key has -/

/-- The grids of every two nibbles under a key. -/
def outputsUnderKey (k : ByteVec) : List Grid :=
  (List.finRange 16 ×ˢ List.finRange 16).map fun m => columnsUnderKey (.ofFin m.1) (.ofFin m.2) k

theorem length_outputsUnderKey (k : ByteVec) : (outputsUnderKey k).length = 256 := by
  rw [outputsUnderKey, List.length_map, List.length_product, List.length_finRange]

theorem columnsUnderKey_mem_outputsUnderKey (m0 m1 : Nibble) (k : ByteVec) :
    columnsUnderKey m0 m1 k ∈ outputsUnderKey k :=
  List.mem_map.2 ⟨(m0.toFin, m1.toFin), List.mem_product.2 ⟨List.mem_finRange _, List.mem_finRange _⟩, rfl⟩

/-- Settles O10: every output is the closed form of two nibbles, of which there are 256 pairs. -/
theorem roundOutputTakesAtMost256Values : Obligations.RoundOutputTakesAtMost256Values := by
  intro k
  refine ⟨outputsUnderKey k, (length_outputsUnderKey k).le, fun b s => ⟨_, exec_enc b k s, ?_⟩⟩
  rw [encEffectUnder_S_closed]
  exact columnsUnderKey_mem_outputsUnderKey _ _ k

/-! ## High and low nibbles through the round -/

/-- Combining a nibble with a cell in [0,15] leaves one (R89). -/
theorem toNat_zext8_xor_lt (m : Nibble) {v : Byte} (h : v.toNat < 16) : (zext8 m ^^^ v).toNat < 16 :=
  of_decide_eq_true (lowCell_xor (lowCell_zext8 m) (decide_eq_true h))

/-- Only the low nibble of a block byte is looked up. -/
theorem whitened_congr {b b' : Byte} (h : lowNibble b = lowNibble b') (k : Byte) : whitened b k = whitened b' k := by
  have split_xor (b : Byte) : whitened b k = lowNibble b ^^^ lowNibble k := BitVec.extractLsb'_xor
  rw [split_xor, split_xor, h]

/-- Blocks that agree on their low nibbles are one to ENC (R89). -/
theorem encEffectUnder_congr (table : Nibble → Nibble) {b b' : ByteVec} (k : ByteVec) (s : State)
    (h0 : lowNibble b.b0 = lowNibble b'.b0) (h1 : lowNibble b.b1 = lowNibble b'.b1)
    (h2 : lowNibble b.b2 = lowNibble b'.b2) (h3 : lowNibble b.b3 = lowNibble b'.b3) :
    encEffectUnder table b k s = encEffectUnder table b' k s := by
  rw [encEffectUnder_closed, encEffectUnder_closed, mixedNibble0, mixedNibble1, whitened_congr h0, whitened_congr h1,
    whitened_congr h2, whitened_congr h3, mixedNibble0, mixedNibble1]

/-- Settles O11: in the closed form the key alone has high nibbles, and the block is looked up by its low ones. -/
theorem highNibblesOfTheRoundAreTheKeys : Obligations.HighNibblesOfTheRoundAreTheKeys := by
  constructor
  · intro b k s
    refine ⟨_, exec_enc b k s, ?_⟩
    rw [encEffectUnder_S_closed]
    refine ⟨highNibble_zext8_xor _ _, highNibble_zext8_xor _ _, highNibble_zext8_xor _ _, highNibble_zext8_xor _ _, ?_⟩
    intro h0 h1 h2 h3
    exact ⟨toNat_zext8_xor_lt _ h0, toNat_zext8_xor_lt _ h1, toNat_zext8_xor_lt _ h2, toNat_zext8_xor_lt _ h3⟩
  · intro b b' k s h0 h1 h2 h3
    rw [exec_enc, exec_enc, encEffectUnder_congr _ k s h0 h1 h2 h3]

/-! ## No inverse -/

/-- Two blocks that differ in a high nibble only. -/
def twinBlocks : ByteVec × ByteVec := (⟨0x00, 0, 0, 0⟩, ⟨0x10, 0, 0, 0⟩)

theorem twinBlocks_ne : twinBlocks.1 ≠ twinBlocks.2 := by decide

/-- A block is read back from its grid (00_scope.md R9). -/
theorem grid_injective : Function.Injective grid := Function.LeftInverse.injective bytes_grid

/-- ENC does not tell the twin blocks apart, under any key and from any state (R88 b). -/
theorem encEffectUnder_twinBlocks (table : Nibble → Nibble) (k : ByteVec) (s : State) :
    encEffectUnder table twinBlocks.1 k s = encEffectUnder table twinBlocks.2 k s :=
  encEffectUnder_congr table k s (by decide) (by decide) (by decide) (by decide)

/-- `S` after a block is encrypted and the output encrypted again with the same key. -/
def encTwiceS (b k : ByteVec) (s : State) : Grid :=
  (encEffectUnder Config.SBOX (bytes (encEffectUnder Config.SBOX b k s).S) k (encEffectUnder Config.SBOX b k s)).S

/-- It does not depend on the state before. -/
theorem encTwiceS_state (b k : ByteVec) (s s' : State) : encTwiceS b k s = encTwiceS b k s' := by
  simp only [encTwiceS, encEffectUnder_S_closed]

/-- One of the twin blocks does not come back: after two ENC they are one grid, which is not both of them (R90). -/
theorem exists_encTwiceS_ne (k : ByteVec) : ∃ b, ∀ s, encTwiceS b k s ≠ grid b := by
  by_cases h : encTwiceS twinBlocks.1 k State.reset = grid twinBlocks.1
  · refine ⟨twinBlocks.2, fun s hback => twinBlocks_ne (grid_injective ?_)⟩
    calc grid twinBlocks.1
        = encTwiceS twinBlocks.1 k State.reset := h.symm
      _ = encTwiceS twinBlocks.2 k State.reset := by rw [encTwiceS, encTwiceS, encEffectUnder_twinBlocks]
      _ = grid twinBlocks.2 := (encTwiceS_state _ k _ s).trans hback
  · exact ⟨twinBlocks.1, fun s hback => h ((encTwiceS_state _ k _ s).trans hback)⟩

/-- Settles O12: two blocks alike in their low nibbles meet after one ENC, and so one of them does not come back. -/
theorem roundHasNoInverse : Obligations.RoundHasNoInverse := by
  constructor
  · intro k
    refine ⟨twinBlocks.1, twinBlocks.2, twinBlocks_ne, fun s => ?_⟩
    rw [exec_enc, exec_enc, encEffectUnder_twinBlocks]
  · intro k
    obtain ⟨b, hb⟩ := exists_encTwiceS_ne k
    exact ⟨b, fun s => ⟨_, _, exec_enc b k s, exec_enc _ k _, hb s⟩⟩

end Sys2Proof.Machine
end

section
/-!
# ENC and its expansion, and what ENC forgets

A list of commands whose loads come first runs through, and where it ends is each command's effect in turn
(`runCommands_of_loadsFirst`). For ENC's expansion these are ENC's own six actions, each with its count (45_round.md
R87). ENC loads both registers before it reads them, so nothing of their old contents is in its next state (R91).
-/

namespace Sys2Proof.Machine

/-- Each command's effect in turn, each counted. -/
def applyInTurn : List Instr → State → State
  | [], s => s
  | i :: is, s => applyInTurn is (countCommand (carryOn i s))

/-- A run whose loads come first ends where the commands' effects in turn lead (70_reset_and_hazards.md R117). -/
theorem runCommands_of_loadsFirst {is : List Instr} {s : State} (h : loadsFirst s.SW s.KW is = true) :
    runCommands (is.map encode) s = .completed (applyInTurn is s) := by
  induction is generalizing s with
  | nil => rfl
  | cons i is ih =>
    obtain ⟨hi, hrest⟩ := (Bool.and_eq_true _ _).mp h
    have hw : accept (encode i) s = .next (countCommand (carryOn i s)) :=
      accept_eq_next.2 ⟨_, exec_eq_next.2 ⟨by rwa [decode_encode], rfl⟩, by rw [decode_encode]⟩
    rw [List.map_cons, runCommands_of_next hw, applyInTurn]
    exact ih (by rwa [countCommand_SW, countCommand_KW, carryOn_SW, carryOn_KW])

/-- Settles O13: both expansions load before they read, and their effects in turn are ENC's actions. -/
theorem encEqualsItsExpansion : Obligations.EncEqualsItsExpansion := by
  intro b k s
  have runsThrough (is : List Instr) (h : ∀ sw kw, loadsFirst sw kw is = true) :=
    runCommands_of_loadsFirst (h s.SW s.KW)
  refine ⟨_, _, _, runsThrough [.enc b k] ?enc, runsThrough _ ?blockFirst, runsThrough _ ?keyFirst, ?_⟩
  case enc | blockFirst | keyFirst =>
    intro sw kw
    cases sw <;> cases kw <;> rfl
  exact ⟨⟨rfl, rfl, rfl, rfl⟩, rfl, rfl, rfl, rfl⟩

/-- An ENC before another leaves no trace (10_state.md R18). -/
theorem encEffectUnder_encEffectUnder (table : Nibble → Nibble) (b k b' k' : ByteVec) (s : State) :
    encEffectUnder table b' k' (encEffectUnder table b k s) = encEffectUnder table b' k' s := by
  rw [encEffectUnder_closed table b k, encEffectUnder_closed, encEffectUnder_closed]

/-- The registers after ENC are settled by its operands (R91). -/
theorem encEffectUnder_sameRegisters (table : Nibble → Nibble) (b k : ByteVec) (s s' : State) :
    sameRegisters (encEffectUnder table b k s) (encEffectUnder table b k s') :=
  ⟨by rw [encEffectUnder_S, encEffectUnder_S], rfl, rfl, rfl⟩

/-- Settles O14: ENC's operands alone settle the registers it leaves. -/
theorem encForgetsTheStateBefore : Obligations.EncForgetsTheStateBefore := by
  constructor
  · intro b k s s'
    exact ⟨_, _, exec_enc b k s, exec_enc b k s', encEffectUnder_sameRegisters _ b k s s'⟩
  · intro b k b' k' s
    exact ⟨_, _, _, exec_enc b k s, exec_enc b' k' _, exec_enc b' k' s, encEffectUnder_encEffectUnder _ b k b' k' s⟩

end Sys2Proof.Machine
end

section
/-!
# What the commands do twice, and to low cells

Laws of the single commands that follow from their effects on a grid: SHIFT and ARK undo themselves, MIX empties a mixed
grid, SUB looks its own result up again (20_memory.md R42). On cells in [0,15] the inverse table undoes SUB, and only
there (41_substitute.md R65 d). ARK can reach any grid, for a key that is the difference (10_state.md R13).
-/

namespace Sys2Proof.Machine

/-! ## Repeated commands -/

/-- SHIFT twice gives the state back. -/
theorem shiftEffect_shiftEffect (s : State) : shiftEffect (shiftEffect s) = s := by
  rw [shiftEffect_eq, shiftEffect_eq]

/-- ARK twice gives the state back. -/
theorem arkEffect_arkEffect (s : State) : arkEffect (arkEffect s) = s := by
  rw [arkEffect, arkEffect_S, arkEffect_K, xorCells_self_right, arkEffect, writeS_writeS, writeS_self]

/-- A mixed column has one value in both cells, so mixing it again leaves zeros. -/
theorem mixColumns_mixColumns (g : Grid) : mixColumns (mixColumns g) = ⟨0, 0, 0, 0⟩ := by
  simp only [mixColumns_eq, BitVec.xor_self, BitVec.ofNat_eq_ofNat]

/-- The same function of every cell, read at one of them. -/
theorem cell_mapCells (f : Byte → Byte) (g : Grid) (r c : Fin 2) : cell (mapCells f g) r c = f (cell g r c) := by
  fin_cases r <;> fin_cases c <;> rfl

/-- A substituted cell is its own low nibble, so SUB twice looks the table's entry up again. -/
theorem substituteCell_substituteCell (table table' : Nibble → Nibble) (v : Byte) :
    substituteCell table' (substituteCell table v) = zext8 (table' (table (lowNibble v))) := by
  rw [substituteCell, substituteCell, lowNibble_zext8]

/-- Settles O15: each clause is what the command's effect does when it is applied twice. -/
theorem repetitionLaws : Obligations.RepetitionLaws := by
  refine ⟨?loads, ?shift, ?ark, ?mix, ?sub⟩
  case loads =>
    rintro i s (rfl | ⟨b, rfl⟩ | ⟨k, rfl⟩ | ⟨b, k, rfl⟩)
    · exact ⟨s, exec_nop s, exec_nop s⟩
    · exact ⟨_, exec_lds b s, exec_lds b _⟩
    · exact ⟨_, exec_ldk k s, exec_ldk k _⟩
    · exact ⟨_, exec_enc b k s, by rw [exec_enc, encEffectUnder_encEffectUnder]⟩
  case shift =>
    intro s hSW
    have again : exec .shift (shiftEffect s) = .next (shiftEffect (shiftEffect s)) := exec_shift_of_written hSW
    exact ⟨_, exec_shift_of_written hSW, by rw [again, shiftEffect_shiftEffect]⟩
  case ark =>
    intro s hSW hKW
    have again : exec .ark (arkEffect s) = .next (arkEffect (arkEffect s)) := exec_ark_of_written hSW hKW
    exact ⟨_, exec_ark_of_written hSW hKW, by rw [again, arkEffect_arkEffect]⟩
  case mix =>
    intro s hSW
    exact ⟨_, _, exec_mix_of_written hSW, exec_mix_of_written hSW, mixColumns_mixColumns s.S⟩
  case sub =>
    intro s hSW
    refine ⟨_, _, exec_sub_of_written hSW, exec_sub_of_written hSW, fun r c => ?_⟩
    rw [subEffectUnder_S, subEffectUnder_S, cell_mapCells, cell_mapCells, substituteCell_substituteCell]
    rfl

/-! ## SUB on low cells -/

/-- The inverse table undoes a substitution of a cell in [0,15]. -/
theorem substituteCell_symm (table : Equiv.Perm Nibble) {v : Byte} (h : lowCell v = true) :
    substituteCell table.symm (substituteCell table v) = v := by
  rw [substituteCell_substituteCell, table.symm_apply_apply, (lowCell_iff v).1 h]

/-- It undoes SUB on a grid of such cells. -/
theorem mapCells_substituteCell_symm (table : Equiv.Perm Nibble) {g : Grid} (h : lowCells g = true) :
    mapCells (substituteCell table.symm) (mapCells (substituteCell table) g) = g := by
  obtain ⟨g00, g01, g10, g11⟩ := (lowCells_iff g).1 h
  simp only [mapCells, substituteCell_symm table g00, substituteCell_symm table g01, substituteCell_symm table g10,
    substituteCell_symm table g11]

/-- SUB from a written state with the cells `h` substitutes those and changes nothing else. -/
theorem exec_sub_writeS {s : State} (hSW : s.SW = true) (h : Grid) :
    exec .sub (writeS h s) = .next (writeS (mapCells (substituteCell Config.SBOX) h) s) :=
  exec_sub_of_written hSW

/-- SUB takes the cells `h` to the cells `g` exactly when the substitution does. -/
theorem exec_sub_writeS_eq_iff {s : State} (hSW : s.SW = true) (g h : Grid) :
    exec .sub (writeS h s) = .next (writeS g s) ↔ mapCells (substituteCell Config.SBOX) h = g := by
  rw [exec_sub_writeS hSW]
  constructor
  · intro heq
    injection heq with hstate
    exact congrArg State.S hstate
  · rintro rfl
    rfl

/-- SUB loses a high nibble: two cells with one low nibble have one entry (R65 b). -/
theorem substituteCell_of_lowNibble_eq (table : Nibble → Nibble) {u v : Byte} (h : lowNibble u = lowNibble v) :
    substituteCell table u = substituteCell table v := by
  rw [substituteCell, h, substituteCell]

/-- Settles O16: the inverse table gives the one low grid that SUB takes to a low grid; a high nibble is lost. -/
theorem subIsABijectionOfLowNibbles : Obligations.SubIsABijectionOfLowNibbles := by
  constructor
  · intro g s hSW hg
    refine ⟨mapCells (substituteCell Config.SBOX.symm) g, ⟨lowCells_mapCells_substituteCell _ g, ?hits⟩, ?only⟩
    case hits =>
      exact (exec_sub_writeS_eq_iff hSW g _).2 (mapCells_substituteCell_symm Config.SBOX.symm hg)
    case only =>
      rintro h ⟨hlow, hexec⟩
      rw [← (exec_sub_writeS_eq_iff hSW g h).1 hexec, mapCells_substituteCell_symm Config.SBOX hlow]
  · intro s hSW
    refine ⟨⟨0x00, 0, 0, 0⟩, ⟨0x10, 0, 0, 0⟩, by decide, ?_⟩
    have sameEntry : substituteCell Config.SBOX 0x00 = substituteCell Config.SBOX 0x10 :=
      substituteCell_of_lowNibble_eq _ (by decide)
    refine (exec_sub_writeS hSW _).trans (Eq.trans ?_ (exec_sub_writeS hSW _).symm)
    simp only [mapCells, sameEntry]

/-! ## Any cells at all -/

/-- ARK combines two grids in either order alike (00_scope.md R7). -/
theorem xorCells_comm (g h : Grid) : xorCells g h = xorCells h g := by
  simp only [xorCells, BitVec.xor_comm]

/-- The key that takes the cells `h` to the cells `g` is their difference. -/
theorem xorCells_difference (g h : Grid) : xorCells h (xorCells g h) = g := by
  rw [xorCells_comm, xorCells_self_right]

/-- Settles O17: SUB leaves zero-extended entries, SHIFT and MIX keep low cells low, the loads place any grid, and ARK
reaches any grid through the key that is the difference. -/
theorem lowNibblesComeAndGo : Obligations.LowNibblesComeAndGo := by
  refine ⟨?sub, ?keep, ?reach⟩
  case sub =>
    intro s hSW
    exact ⟨_, exec_sub_of_written hSW, lowCells_mapCells_substituteCell _ s.S⟩
  case keep =>
    intro s hSW hlow
    exact ⟨⟨_, exec_shift_of_written hSW, lowCells_swapRowOne hlow⟩,
      ⟨_, exec_mix_of_written hSW, lowCells_mixColumns hlow⟩⟩
  case reach =>
    intro g s
    refine ⟨⟨bytes g, _, exec_lds _ s, grid_bytes g⟩, ⟨bytes g, _, exec_ldk _ s, grid_bytes g⟩, fun hSW => ?_⟩
    refine ⟨bytes (xorCells g s.S), _, _, exec_ldk _ s, exec_ark_of_written hSW (loadK_KW _ s), ?_⟩
    rw [arkEffect_S, loadK_S, loadK_K, grid_bytes, xorCells_difference]

end Sys2Proof.Machine
end

section
/-!
# What `dout` shows

While `SW = 1` the shown grid is `S`, and the port packs its bytes, so unpacking the port gives the cells back
(46_nop_readout_render.md R94, 20_memory.md R33). A block of zeros combined with a key is the key, which is how a loaded
key can be shown (R96).
-/

namespace Sys2Proof.Machine

/-- While `SW = 1` the grid on the port is `S` (R94). -/
theorem shownGrid_of_written {s : State} (h : s.SW = true) : shownGrid s = s.S := by
  rw [shownGrid, h, cond_true]

/-- While `SW = 1` the port is the packed bytes of `S` (R94). -/
theorem dout_of_written {s : State} (h : s.SW = true) : dout s = packBytes (bytes s.S) := by
  rw [dout, shownGrid_of_written h]

/-- While `SW = 1` the observation is `(1, S)` (R94). -/
theorem observe_of_written {s : State} (h : s.SW = true) : observe s = (true, s.S) := by
  rw [observe, doutValid_eq_SW, h, shownGrid_of_written h]

/-- Settles O37: the byte lanes of `dout`, read back, are the bytes of `S`. -/
theorem doutShowsTheDataState : Obligations.DoutShowsTheDataState := by
  intro s hSW
  have lanes : bytesOf (dout s) = bytes s.S := by rw [dout_of_written hSW, bytesOf_packBytes]
  exact ⟨congrArg ByteVec.b0 lanes, congrArg ByteVec.b1 lanes, congrArg ByteVec.b2 lanes, congrArg ByteVec.b3 lanes,
    observe_of_written hSW⟩

/-- A block of zeros combined with a key is the key. -/
theorem xorCells_zero_left (g : Grid) : xorCells (grid ⟨0, 0, 0, 0⟩) g = g := by
  simp only [xorCells, grid, BitVec.ofNat_eq_ofNat, BitVec.zero_xor]

/-- Settles O18: ARK on a loaded block of zeros writes the key to `S`, which `dout` shows. -/
theorem zeroBlockRevealsTheKey : Obligations.ZeroBlockRevealsTheKey := by
  intro s hKW
  have hSW (b : ByteVec) : (arkEffect (loadS b s)).SW = true := by rw [arkEffect_SW, loadS_SW]
  have hS : (arkEffect (loadS ⟨0, 0, 0, 0⟩ s)).S = s.K := by rw [arkEffect_S, loadS_S, loadS_K, xorCells_zero_left]
  refine ⟨_, _, exec_lds _ s, exec_ark_of_written (loadS_SW _ s) hKW, ?_, ?_⟩
  · rw [observe_of_written (hSW _), hS]
  · rw [dout_of_written (hSW _), hS]

end Sys2Proof.Machine
end

section
/-!
# What a command touches, and what touches it

The access matrix of 10_state.md R14 as facts about `carryOn`: which commands load a register (`loadsS_iff`,
`loadsK_iff`), that no other command writes the key, and which old contents the new ones come from. Two states that
differ in the key alone are told apart by ARK only: `exec_of_sameButKey`, and command by command the same for a run
(46_nop_readout_render.md R96).
-/

namespace Sys2Proof.Machine

/-! ## What is written -/

/-- LDK and ENC are the commands that load `K` (R14). -/
theorem loadsK_iff (i : Instr) : loadsK i = true ↔ (∃ k, i = .ldk k) ∨ ∃ b k, i = .enc b k := by
  cases i <;> simp [loadsK]

/-- Settles O19: a command that completes sets the tag of what it loads and keeps the other. -/
theorem commandsOnlySetTags : Obligations.CommandsOnlySetTags := by
  intro i s t h
  obtain ⟨-, rfl⟩ := exec_next h
  rw [carryOn_SW, carryOn_KW, Bool.or_eq_true, Bool.or_eq_true, loadsS_iff, loadsK_iff]
  exact ⟨or_comm, or_comm⟩

/-- Settles O20: a command that is neither LDK nor ENC does not load `K`, and so leaves it and its tag. -/
theorem onlyLoadsWriteTheKey : Obligations.OnlyLoadsWriteTheKey := by
  intro i s t h hldk henc
  obtain ⟨-, rfl⟩ := exec_next h
  have hloads : loadsK i = false := by
    rw [← Bool.not_eq_true, loadsK_iff]
    rintro (⟨k, hi⟩ | ⟨b, k, hi⟩)
    · exact hldk k hi
    · exact henc b k hi
  exact ⟨carryOn_K_of_not_loadsK hloads s, by rw [carryOn_KW, hloads, Bool.false_or]⟩

/-! ## What is read -/

/-- A command that does not read `S` reads nothing, and so completes in every state (R14, 60_exceptions.md R102). -/
theorem exec_of_not_readsS {i : Instr} (h : readsS i = false) (s : State) : exec i s = .next (carryOn i s) := by
  have hK : readsK i = false := by
    rw [← Bool.not_eq_true] at h ⊢
    exact mt readsS_of_readsK h
  rw [exec_eq_next, loadedFor, h, hK]
  exact ⟨rfl, rfl⟩

/-- The new `K` comes from the old one and the operands (R14). -/
theorem carryOn_K_congr (i : Instr) {s s' : State} (h : s.K = s'.K) : (carryOn i s).K = (carryOn i s').K := by
  cases i with
  | nop | lds b | ark | sub | shift | mix => exact h
  | ldk k | enc b k => rfl

/-- But for ARK, the new `S` comes from the old one and the operands (R14). -/
theorem carryOn_S_congr {i : Instr} (hi : i ≠ .ark) {s s' : State} (h : s.S = s'.S) :
    (carryOn i s).S = (carryOn i s').S := by
  cases i with
  | nop | ldk k => exact h
  | lds b => rfl
  | ark => exact absurd rfl hi
  | sub => exact congrArg (mapCells (substituteCell Config.SBOX)) h
  | shift => exact congrArg swapRowOne h
  | mix => exact congrArg mixColumns h
  | enc b k => rw [carryOn, carryOn, encEffectUnder_S, encEffectUnder_S]

/-- States alike but for the key stay so under a command other than ARK. -/
theorem carryOn_sameButKey {i : Instr} (hi : i ≠ .ark) {s s' : State} (h : sameButKey s s') :
    sameButKey (carryOn i s) (carryOn i s') := by
  obtain ⟨hS, hSW, hprogram, hindex, hepoch⟩ := h
  refine ⟨carryOn_S_congr hi hS, ?_, ?_, ?_, ?_⟩
  · rw [carryOn_SW, carryOn_SW, hSW]
  · rw [carryOn_program, carryOn_program, hprogram]
  · rw [carryOn_index, carryOn_index, hindex]
  · rw [carryOn_epoch, carryOn_epoch, hepoch]

/-- From states alike but for the key, a command other than ARK completes alike or faults alike (R14, R96). -/
theorem exec_of_sameButKey {i : Instr} (hi : i ≠ .ark) {s s' : State} (h : sameButKey s s') :
    (exec i s = .next (carryOn i s) ∧ exec i s' = .next (carryOn i s')) ∨
      ∃ f, exec i s = .fault f ∧ exec i s' = .fault f := by
  obtain ⟨-, hSW, -, hindex, -⟩ := h
  have hK : readsK i = false := by rwa [← Bool.not_eq_true, readsK_iff]
  simp only [exec_eq, hK, hSW, hindex, Bool.false_eq_true, and_false, if_false]
  split_ifs
  · exact .inr ⟨_, rfl, rfl⟩
  · exact .inl ⟨rfl, rfl⟩

/-- Settles O21: without ARK the key decides nothing; a command that reads nothing completes; and what is loaded comes
from the operands. -/
theorem unreadRegistersDoNotMatter : Obligations.UnreadRegistersDoNotMatter := by
  refine ⟨?key, ?state, ?loadedS, ?loadedK⟩
  case key =>
    intro i s g tag hi
    have h : sameButKey s { s with K := g, KW := tag } := ⟨rfl, rfl, rfl, rfl, rfl⟩
    obtain ⟨hS, hSW, -, -, -⟩ := carryOn_sameButKey hi h
    obtain ⟨hs, hs'⟩ | ⟨f, hs, hs'⟩ := exec_of_sameButKey hi h
    · rw [hs, hs']
      refine ⟨fun t ht => ?_, fun _ => nofun⟩
      cases ht
      exact ⟨_, rfl, hS.symm, hSW.symm⟩
    · rw [hs, hs']
      exact ⟨fun _ => nofun, fun _ hf => hf⟩
  case state =>
    intro i s g tag hark hsub hshift hmix
    have hr : readsS i = false := by
      rw [← Bool.not_eq_true, readsS_iff]
      exact fun h => h.elim hark fun h => h.elim hsub fun h => h.elim hshift hmix
    refine ⟨_, _, exec_of_not_readsS hr s, exec_of_not_readsS hr _, carryOn_K_congr i rfl, ?_⟩
    rw [carryOn_KW, carryOn_KW]
  case loadedS =>
    rintro i s g tag (⟨b, rfl⟩ | ⟨b, k, rfl⟩)
    · exact ⟨_, _, exec_lds b s, exec_lds b _, rfl, rfl⟩
    · exact ⟨_, _, exec_enc b k s, exec_enc b k _, by rw [encEffectUnder_S, encEffectUnder_S], rfl⟩
  case loadedK =>
    rintro i s g tag (⟨k, rfl⟩ | ⟨b, k, rfl⟩)
    · exact ⟨_, _, exec_ldk k s, exec_ldk k _, rfl, rfl⟩
    · exact ⟨_, _, exec_enc b k s, exec_enc b k _, rfl, rfl⟩

/-! ## Runs without ARK -/

/-- From states alike but for the key, an accepted command other than ARK leaves such states, or faults alike. -/
theorem accept_of_sameButKey {w : CommandWord} (hw : decode w ≠ .ark) {s s' : State} (h : sameButKey s s') :
    (∃ t t', accept w s = .next t ∧ accept w s' = .next t' ∧ sameButKey t t') ∨
      ∃ f, accept w s = .fault f ∧ accept w s' = .fault f := by
  obtain ⟨hs, hs'⟩ | ⟨f, hs, hs'⟩ := exec_of_sameButKey hw h
  · obtain ⟨hS, hSW, hprogram, hindex, hepoch⟩ := carryOn_sameButKey hw h
    refine .inl ⟨_, _, accept_eq_next.2 ⟨_, hs, rfl⟩, accept_eq_next.2 ⟨_, hs', rfl⟩, hS, hSW, hprogram, ?_, hepoch⟩
    rw [countCommand_index, countCommand_index, hindex]
  · exact .inr ⟨f, accept_eq_fault.2 hs, accept_eq_fault.2 hs'⟩

/-- From states alike but for the key a run without ARK completes in such states, or faults alike in such states. -/
theorem runCommands_of_sameButKey {ws : List CommandWord} (hws : ∀ w ∈ ws, decode w ≠ .ark) {s s' : State}
    (h : sameButKey s s') :
    (∃ t t', runCommands ws s = .completed t ∧ runCommands ws s' = .completed t' ∧ sameButKey t t') ∨
      ∃ f t t', runCommands ws s = .faulted f t ∧ runCommands ws s' = .faulted f t' ∧ sameButKey t t' := by
  induction ws generalizing s s' with
  | nil => exact .inl ⟨s, s', runCommands_nil s, runCommands_nil s', h⟩
  | cons w ws ih =>
    obtain ⟨hw, hrest⟩ := List.forall_mem_cons.1 hws
    obtain ⟨t, t', ht, ht', htt'⟩ | ⟨f, hs, hs'⟩ := accept_of_sameButKey hw h
    · rw [runCommands_of_next ht, runCommands_of_next ht']
      exact ih hrest htt'
    · exact .inr ⟨f, s, s', runCommands_of_fault hs, runCommands_of_fault hs', h⟩

/-- Written states alike but for the key show the same (R94, R96). -/
theorem outputs_of_sameButKey {t t' : State} (h : sameButKey t t') (hSW : t.SW = true) :
    observe t = observe t' ∧ dout t = dout t' := by
  obtain ⟨hS, htags, -, -, -⟩ := h
  have hSW' : t'.SW = true := htags ▸ hSW
  rw [observe_of_written hSW, observe_of_written hSW', dout_of_written hSW, dout_of_written hSW', hS]
  exact ⟨rfl, rfl⟩

/-- Settles O44: without ARK the two runs go in step to their end, in states that differ in the key alone. -/
theorem keyStaysInvisibleWithoutArk : Obligations.KeyStaysInvisibleWithoutArk := by
  intro ws s s' h hws
  obtain ⟨u, u', hs, hs', huu'⟩ | ⟨f, u, u', hs, hs', huu'⟩ := runCommands_of_sameButKey hws h
  · rw [hs, hs']
    refine ⟨fun t ht => ?_, fun _ _ => nofun⟩
    cases ht
    exact ⟨u', rfl, huu', outputs_of_sameButKey huu'⟩
  · rw [hs, hs']
    refine ⟨fun _ => nofun, fun f t ht => ?_⟩
    cases ht
    exact ⟨u', rfl, huu'⟩

end Sys2Proof.Machine
end

section
/-!
# Steps, edges and runs

A step with a command offered accepts it and takes it off the host's list, and one without changes nothing
(30_encoding.md R46). No command reads that list (`accept_setProgram`), so a machine that holds a list of commands takes
the steps of the run over them, one command at a time (20_memory.md R38).
-/

namespace Sys2Proof.Machine

/-- With no command offered a step changes nothing (R46, R113). -/
theorem step_of_nil {s : State} (h : s.program = []) : step s = .next s := by
  rw [step, issueNext, h, idle]

/-- Settles O31: the step is the accepted command's answer, the word off the list and the command counted. -/
theorem stepRunsTheDecodedCommand : Obligations.StepRunsTheDecodedCommand := by
  intro s w rest hp
  rw [step_of_cons hp, accept]
  cases exec (decode w) s <;> rfl

/-- Settles O32: with the list empty the engine idles. -/
theorem stepWithoutACommandChangesNothing : Obligations.StepWithoutACommandChangesNothing :=
  fun _ => step_of_nil

/-- Settles O36: an edge without reset accepts the command on the ports, and without one it idles. -/
theorem edgeAcceptsAnOfferedCommand : Obligations.EdgeAcceptsAnOfferedCommand := by
  refine ⟨fun e s hrst hv => ?_, fun e s hrst hv => edge_of_idle hrst hv s⟩
  rw [edge_of_cmdValid hrst hv, accept, portWord]
  cases exec (decode (commandWord e.cmdOp e.cmdKin e.cmdDin)) s <;> rfl

/-! ## The host's list and a run -/

/-- No command reads or writes the host's list. -/
theorem carryOn_setProgram (i : Instr) (p : List CommandWord) (s : State) :
    carryOn i (setProgram p s) = setProgram p (carryOn i s) := by
  cases i <;> rfl

/-- So a command is accepted alike whatever the list holds. -/
theorem accept_setProgram (w : CommandWord) (p : List CommandWord) (s : State) :
    accept w (setProgram p s) = onNext (setProgram p) (accept w s) := by
  rw [accept, accept, exec_eq, exec_eq, carryOn_setProgram, setProgram_SW, setProgram_KW, setProgram_index]
  split_ifs <;> rfl

/-- A step takes the first command off the list, and does what it does to the registers. -/
theorem step_setProgram_cons (w : CommandWord) (p : List CommandWord) (s : State) :
    step (setProgram (w :: p) s) = onNext (setProgram p) (accept w s) := by
  rw [step_of_cons (setProgram_program (w :: p) s), accept_setProgram]
  cases accept w s <;> rfl

/-- The machine's run goes on from a step to a next state. -/
theorem run_succ_of_next {s t : State} (h : step s = .next t) (n : Nat) :
    Host.Core.run Sys2Proof.core (n + 1) s = Host.Core.run Sys2Proof.core n t := by
  have hcore : Sys2Proof.core.step s = .next t := h
  simp only [Host.Core.run, hcore]

/-- The machine's run stops at a step that faults. -/
theorem run_succ_of_fault {s : State} {f : Fault} (h : step s = .fault f) (n : Nat) :
    Host.Core.run Sys2Proof.core (n + 1) s = .fault f := by
  have hcore : Sys2Proof.core.step s = .fault f := h
  simp only [Host.Core.run, hcore]

/-- With the commands of a completed run in front of its list, the machine steps to where the run ends. -/
theorem run_of_completed {ws : List CommandWord} (rest : List CommandWord) {s t : State}
    (h : runCommands ws s = .completed t) :
    Host.Core.run Sys2Proof.core ws.length (setProgram (ws ++ rest) s) = .next (setProgram rest t) := by
  induction ws generalizing s with
  | nil =>
    cases h
    rfl
  | cons w ws ih =>
    obtain ⟨u, hu, hrest⟩ := runCommands_cons_eq_completed.1 h
    have hstep : step (setProgram (w :: ws ++ rest) s) = .next (setProgram (ws ++ rest) u) := by
      rw [List.cons_append, step_setProgram_cons, hu, onNext_next]
    exact (run_succ_of_next hstep ws.length).trans (ih hrest)

/-- A run ends in a fault exactly when its first command does, or completes and the rest ends so. -/
theorem runCommands_cons_eq_faulted {w : CommandWord} {ws : List CommandWord} {s t : State} {f : Fault} :
    runCommands (w :: ws) s = .faulted f t ↔
      accept w s = .fault f ∧ s = t ∨ ∃ u, accept w s = .next u ∧ runCommands ws u = .faulted f t := by
  cases h : accept w s <;> simp [runCommands, h]

/-- With the commands of a run that faults in front of its list, the machine stops with that fault. -/
theorem run_of_faulted {ws : List CommandWord} (rest : List CommandWord) {s t : State} {f : Fault}
    (h : runCommands ws s = .faulted f t) :
    Host.Core.run Sys2Proof.core ws.length (setProgram (ws ++ rest) s) = .fault f := by
  induction ws generalizing s with
  | nil => cases h
  | cons w ws ih =>
    have hstep : step (setProgram (w :: ws ++ rest) s) = onNext (setProgram (ws ++ rest)) (accept w s) := by
      rw [List.cons_append, step_setProgram_cons]
    obtain ⟨hf, -⟩ | ⟨u, hu, hrest⟩ := runCommands_cons_eq_faulted.1 h
    · rw [hf, onNext_fault] at hstep
      exact run_succ_of_fault hstep ws.length
    · rw [hu, onNext_next] at hstep
      exact (run_succ_of_next hstep ws.length).trans (ih hrest)

/-- Settles O33, by induction on the list: each step takes one command off it and does what the run does with it. -/
theorem stepsApplyTheCommandsInOrder : Obligations.StepsApplyTheCommandsInOrder := by
  intro ws rest s hp
  have held : setProgram (ws ++ rest) s = s := by rw [← hp, setProgram]
  constructor
  · intro t h
    have hrun := run_of_completed rest h
    rw [held] at hrun
    exact hrun
  · intro f t h
    have hrun := run_of_faulted rest h
    rw [held] at hrun
    exact hrun

end Sys2Proof.Machine
end

section
/-!
# Engines share nothing

A turn changes the engine it names and no other, so behind any turns an engine has taken as many of its own steps as it
was named (20_memory.md R43): `getElem?_interleave`. A permutation of the turns names each engine as often
(60_exceptions.md R111).
-/

namespace Sys2Proof.Machine

/-- A turn steps the engine it names and leaves the others. -/
theorem getElem?_stepOf (m n : Nat) (engines : System) :
    (stepOf m engines)[n]? = engines[n]?.map (stepsOfEngine (if m = n then 1 else 0)) := by
  rw [stepOf, List.getElem?_modify]
  split_ifs <;> cases engines[n]? <;> rfl

/-- Steps in a row are steps one after the other. -/
theorem stepsOfEngine_add (m n : Nat) (e : Engine) :
    stepsOfEngine n (stepsOfEngine m e) = stepsOfEngine (m + n) e := by
  induction m generalizing e with
  | zero => rw [Nat.zero_add, stepsOfEngine]
  | succ m ih => rw [Nat.succ_add, stepsOfEngine, stepsOfEngine, ih]

/-- Behind any turns each engine has taken its own steps, as many as it was named. -/
theorem getElem?_interleave (turns : List Nat) (engines : System) (n : Nat) :
    (interleave turns engines)[n]? = engines[n]?.map (stepsOfEngine (turns.count n)) := by
  induction turns generalizing engines with
  | nil => cases h : engines[n]? <;> simp [interleave, h, stepsOfEngine]
  | cons m turns ih =>
    rw [interleave, ih, getElem?_stepOf, Option.map_map, List.count_cons]
    congr 1
    funext e
    rw [Function.comp_apply, stepsOfEngine_add, Nat.add_comm]
    simp only [beq_iff_eq]

/-- Settles O45: an engine's place depends on how often it was named, which no order of the turns changes. -/
theorem enginesAreIndependent : Obligations.EnginesAreIndependent := by
  constructor
  · intro turns engines n e he
    rw [getElem?_interleave, he, Option.map_some]
  · intro turns turns' engines hperm
    refine List.ext_getElem? fun n => ?_
    rw [getElem?_interleave, getElem?_interleave, hperm.count_eq]

end Sys2Proof.Machine
end
